-- ==== Sys2Proof/Word.lean ====
section
/-! DEFINITION. The word types of the machine (10_state.md, 30_encoding.md R71): every value the spec treats as bits. -/

namespace Sys2Proof

/-- A 4-bit field: a register number, a key number or a row count (R71, R72). -/
abbrev Nibble := BitVec 4

/-- An 8-bit register, immediate or memory byte (R7, R21, R50). -/
abbrev Byte := BitVec 8

/-- A 12-bit address: PC, I, a stack slot, the field NNN (R24, R26, R28, R71). -/
abbrev Addr := BitVec 12

/-- A 16-bit instruction word (R70). -/
abbrev Word := BitVec 16

/-- The index of VF, the register that doubles as the flag (R22). -/
abbrev flagReg : Nibble := 15#4

end Sys2Proof
end

