-- ==== Sys2Proof/Syntax.lean ====
section
/-! DEFINITION. The 34 instruction forms of spec/opcode_table.json (R74), one constructor per row in the table's
order. Operands carry the exact width of their field (R71), so no term can hold a value the word cannot. -/

namespace Sys2Proof

/-- A decoded instruction. `x`, `y` are register numbers, `nn` an immediate byte, `nnn` a 12-bit address and `n` a
row count (R72). 8XY6 and 8XYE keep the Y field that they ignore, so that a word and its instruction are
one-to-one. -/
inductive Instr where
  /-- 00E0 `CLS` (R150) -/
  | cls
  /-- 00EE `RET` (R102) -/
  | ret
  /-- 1NNN `JP addr` (R100) -/
  | jp (nnn : Addr)
  /-- 2NNN `CALL addr` (R101) -/
  | call (nnn : Addr)
  /-- 3XNN `SE Vx, byte` (R111) -/
  | seByte (x : Nibble) (nn : Byte)
  /-- 4XNN `SNE Vx, byte` (R112) -/
  | sneByte (x : Nibble) (nn : Byte)
  /-- 5XY0 `SE Vx, Vy` (R113) -/
  | seReg (x y : Nibble)
  /-- 6XNN `LD Vx, byte` (R120) -/
  | ldByte (x : Nibble) (nn : Byte)
  /-- 7XNN `ADD Vx, byte` (R121) -/
  | addByte (x : Nibble) (nn : Byte)
  /-- 8XY0 `LD Vx, Vy` (R122) -/
  | ldReg (x y : Nibble)
  /-- 8XY1 `OR Vx, Vy` (R123) -/
  | orReg (x y : Nibble)
  /-- 8XY2 `AND Vx, Vy` (R124) -/
  | andReg (x y : Nibble)
  /-- 8XY3 `XOR Vx, Vy` (R125) -/
  | xorReg (x y : Nibble)
  /-- 8XY4 `ADD Vx, Vy` (R127) -/
  | addReg (x y : Nibble)
  /-- 8XY5 `SUB Vx, Vy` (R128) -/
  | sub (x y : Nibble)
  /-- 8XY6 `SHR Vx, Vy` (R129) -/
  | shr (x y : Nibble)
  /-- 8XY7 `SUBN Vx, Vy` (R130) -/
  | subn (x y : Nibble)
  /-- 8XYE `SHL Vx, Vy` (R131) -/
  | shl (x y : Nibble)
  /-- 9XY0 `SNE Vx, Vy` (R114) -/
  | sneReg (x y : Nibble)
  /-- ANNN `LD I, addr` (R140) -/
  | ldI (nnn : Addr)
  /-- BNNN `JP V0, addr` (R103) -/
  | jpV0 (nnn : Addr)
  /-- CXNN `RND Vx, byte` (R132) -/
  | rnd (x : Nibble) (nn : Byte)
  /-- DXYN `DRW Vx, Vy, nibble` (R151) -/
  | drw (x y n : Nibble)
  /-- EX9E `SKP Vx` (R115) -/
  | skp (x : Nibble)
  /-- EXA1 `SKNP Vx` (R116) -/
  | sknp (x : Nibble)
  /-- FX07 `LD Vx, DT` (R160) -/
  | ldVxDt (x : Nibble)
  /-- FX0A `LD Vx, K` (R161) -/
  | ldVxK (x : Nibble)
  /-- FX15 `LD DT, Vx` (R162) -/
  | ldDtVx (x : Nibble)
  /-- FX18 `LD ST, Vx` (R163) -/
  | ldStVx (x : Nibble)
  /-- FX1E `ADD I, Vx` (R141) -/
  | addI (x : Nibble)
  /-- FX29 `LD F, Vx` (R142) -/
  | ldF (x : Nibble)
  /-- FX33 `LD B, Vx` (R143) -/
  | ldB (x : Nibble)
  /-- FX55 `LD [I], Vx` (R144) -/
  | storeRegs (x : Nibble)
  /-- FX65 `LD Vx, [I]` (R145) -/
  | loadRegs (x : Nibble)
  deriving DecidableEq, Repr

end Sys2Proof
end

