-- ==== Sys2Proof/WellFormed.lean ====
section
/-! DEFINITION. Which words are instructions, class by class (30_encoding.md R75 and R76). It is written from the
prose of R75 and does not use the decoder, so that the two can be checked against each other. -/

namespace Sys2Proof

/-- The word has a meaning in its class (R75): the check of each class that does not decode every word. A word that
fails it is unrecognized (R76). -/
def wordRecognised (w : Word) : Bool :=
  let c := (w >>> 12).toNat
  let n := (w &&& 0x000F#16).toNat
  let nn := (w &&& 0x00FF#16).toNat
  if c = 0x0 then w = 0x00E0#16 ∨ w = 0x00EE#16
  else if c = 0x5 ∨ c = 0x9 then n = 0
  else if c = 0x8 then n ∈ [0x0, 0x1, 0x2, 0x3, 0x4, 0x5, 0x6, 0x7, 0xE]
  else if c = 0xE then nn ∈ [0x9E, 0xA1]
  else if c = 0xF then nn ∈ [0x07, 0x0A, 0x15, 0x18, 0x1E, 0x29, 0x33, 0x55, 0x65]
  else true

/-- The bounds R72 puts on an instruction's operands. The operand types carry them, so every instruction meets
them (`Instr.wellFormed_all` in Laws): no operand value is excluded by the spec. -/
def Instr.wellFormed : Instr → Bool
  | .cls | .ret => true
  | .jp nnn | .call nnn | .ldI nnn | .jpV0 nnn => nnn.toNat < 4096
  | .seByte x nn | .sneByte x nn | .ldByte x nn | .addByte x nn | .rnd x nn => x.toNat < 16 && nn.toNat < 256
  | .seReg x y | .sneReg x y | .ldReg x y | .orReg x y | .andReg x y | .xorReg x y | .addReg x y | .sub x y
  | .shr x y | .subn x y | .shl x y => x.toNat < 16 && y.toNat < 16
  | .drw x y n => x.toNat < 16 && y.toNat < 16 && n.toNat < 16
  | .skp x | .sknp x | .ldVxDt x | .ldVxK x | .ldDtVx x | .ldStVx x | .addI x | .ldF x | .ldB x | .storeRegs x
  | .loadRegs x => x.toNat < 16

end Sys2Proof
end

