-- ==== Sys2Proof/Config.lean ====
section
/-! DEFINITION. What is fixed for a machine (00_scope.md R5) and the free values the spec leaves open.
A constant declared `opaque` has no body that a proof can see: a theorem about it holds for every value. -/

namespace Sys2Proof

/-- The readings of the source's flag-first shift rows that differ only for X = 15 (decision D8). -/
inductive VfShiftAlias where
  /-- the statements in order, the second reading the register after the first wrote it -/
  | docOrder
  /-- both values from the old register, the flag written last -/
  | flagWins
  /-- both values from the old register, the result written last -/
  | resultWins
  deriving DecidableEq, Repr, Inhabited

namespace Config

/-- `MEM_SIZE`: the number of bytes of memory, so addresses are 0..4095 (R5, R50). -/
abbrev memSize : Nat := 4096

/-- `FONT_BASE`: where the 80 font bytes lie (R5, R38). -/
abbrev fontBase : Nat := 0x050

/-- `FONT_LEN`: 16 glyphs of 5 bytes (R5, R38). -/
abbrev fontLen : Nat := 80

/-- `ROM_BASE`: where the program is loaded and the first fetch is made (R5, R240). -/
abbrev romBase : Nat := 0x200

/-- `FB_W` and `FB_H`: the framebuffer's width and height (R5, R32). -/
abbrev fbWidth : Nat := 64

/-- The framebuffer's height (R5, R32). -/
abbrev fbHeight : Nat := 32

/-- `FONT`: the OPEN parameter of R38 (decision D21), any 80 bytes. DESIGN CHOICE (log entry 6): free, safe. -/
opaque font : Vector Byte fontLen

/-- The default of `FONT` that R38 lists, from general knowledge and not from the source. The machine does not
use it: it is the argument to give `State.bootWith` for a claim about a machine with this very font. -/
def defaultFont : Vector Byte fontLen :=
  #v[0xF0, 0x90, 0x90, 0x90, 0xF0,  0x20, 0x60, 0x20, 0x20, 0x70,
     0xF0, 0x10, 0xF0, 0x80, 0xF0,  0xF0, 0x10, 0xF0, 0x10, 0xF0,
     0x90, 0x90, 0xF0, 0x10, 0x10,  0xF0, 0x80, 0xF0, 0x10, 0xF0,
     0xF0, 0x80, 0xF0, 0x90, 0xF0,  0xF0, 0x10, 0x20, 0x40, 0x40,
     0xF0, 0x90, 0xF0, 0x90, 0xF0,  0xF0, 0x90, 0xF0, 0x10, 0xF0,
     0xF0, 0x90, 0xF0, 0x90, 0x90,  0xE0, 0x90, 0xE0, 0x90, 0xE0,
     0xF0, 0x80, 0x80, 0x80, 0xF0,  0xE0, 0x90, 0x90, 0x90, 0xE0,
     0xF0, 0x80, 0xF0, 0x80, 0xF0,  0xF0, 0x80, 0xF0, 0x80, 0x80]

/-- `VF_SHIFT_ALIAS`: the OPEN parameter of R129 and R131 (decision D8). DESIGN CHOICE (log entry 5): free, safe. -/
opaque vfShiftAlias : VfShiftAlias

/-- `TICK_HZ`: the OPEN parameter of R219 (decision D19), nominally 60. No rule depends on it, so nothing reads it. -/
opaque tickHz : Nat

/-- The random oracle of R229 (decision D20): the byte of the n-th draw, under no law (log entry 3): free, safe. -/
opaque randomByte : Nat → Byte

/-- The n-th choice among several key-downs (R212): a number under no law, reduced by the machine to an index into
the key-downs observed (log entry 4): free, safe. -/
opaque waitChoice : Nat → Nat

end Config

end Sys2Proof
end

