-- ==== Sys2Proof/Machine/State.lean ====
section
/-! DEFINITION. The machine's state (10_state.md R20 to R36), its reset value (R40), and the reasons a step can stop.
State is plain data. The last four fields are the model's own: host input and output, and counters of free values. -/

namespace Sys2Proof.Machine

/-- An input event of a tick (R211, R225); a key number is 0..15 (R226). -/
inductive Event where
  | keyDown (k : Nibble)
  | keyUp (k : Nibble)
  | quit
  deriving DecidableEq, Repr

/-- `EXEC`, the driver state (R34). The wait's destination register exists only inside the waiting state. -/
inductive ExecState where
  | running
  | waitingForKey (dest : Nibble)
  | stopped
  /-- no transition enters or leaves it except quit (R217, R218) -/
  | paused
  deriving DecidableEq, Repr

/-- The seven fault kinds of R200. -/
inductive FaultKind where
  | capacityExceeded
  | unimplementedOpcode
  | stackOverflow
  | stackUnderflow
  | memoryOutOfRange
  | pcOutOfRange
  | keyOutOfRange
  deriving DecidableEq, Repr

/-- The info of a fault record (R200): one number, or the offset and length of a failed bulk write. -/
inductive FaultInfo where
  | value (n : Nat)
  | load (offset length : Nat)
  deriving DecidableEq, Repr

/-- The fault record of R203. Its code is a function of its kind (`FaultKind.code`). -/
structure FaultRecord where
  kind : FaultKind
  /-- the address of the faulting instruction; absent for `capacityExceeded` -/
  pc : Option Addr
  /-- the fetched word; absent when the fetch itself faulted and for `capacityExceeded` -/
  word : Option Word
  info : FaultInfo
  deriving DecidableEq, Repr

/-- V0..VF (R21). -/
abbrev RegFile := Vector Byte 16

/-- The 64 x 32 grid of R32, row by row: `fb[y][x]` is the pixel (x, y), true when lit. -/
abbrev Framebuffer := Vector (Vector Bool Config.fbWidth) Config.fbHeight

/-- Memory as the bytes that differ from the reset content, by rising address (`Memory.wf` in Ops). -/
abbrev Memory := List Host.Cell

/-- Why a step stops. -/
inductive Fault where
  /-- The run is over. Raised by `step` alone, exactly at a state whose EXEC is `Stopped`, where no tick runs (R209,
  R216); no instruction raises it. A fault OF THE SPEC is not one of these: taking it is a next state with FAULT
  set (R201). Safe: the hardware does not go on either. DESIGN CHOICE (log entry 8). -/
  | runEnded
  deriving DecidableEq, Repr

/-- Why an instruction is refused. -/
inductive Refusal where
  /-- No meaning yet. Raised only by an arm of `exec` for an instruction without a meaning; there is none. Safe. -/
  | notModelled (mnemonic : String)
  deriving DecidableEq, Repr

/-- The machine state (R20). -/
structure State where
  /-- `MEM`, 4096 bytes (R50) -/
  mem : Memory
  /-- `V[0..15]` (R21) -/
  v : RegFile
  /-- `I` (R26) -/
  i : Addr
  /-- `PC` (R24, R25) -/
  pc : Addr
  /-- `SP`, 0..15 (R27) -/
  sp : Nibble
  /-- `STACK[0..15]` (R28) -/
  stack : Vector Addr 16
  /-- `DT` (R29) -/
  dt : Byte
  /-- `ST` (R30) -/
  st : Byte
  /-- `KEY[0..15]`, true when pressed (R31) -/
  key : Vector Bool 16
  /-- `FB` (R32) -/
  fb : Framebuffer
  /-- `REDRAW` (R33) -/
  redraw : Bool
  /-- `EXEC` (R34) -/
  exec : ExecState
  /-- `FAULT` (R35) -/
  fault : Option FaultRecord
  /-- the model's own: the event lists of the coming ticks, one list a tick (R225); past the end of this list a tick
  has no events. DESIGN CHOICE (log entry 1) -/
  inputs : List (List Event)
  /-- the model's own: every snapshot handed to the host's present call, newest first (R215, R227).
  DESIGN CHOICE (log entry 2) -/
  presents : List Framebuffer
  /-- the model's own: how many random bytes have been drawn (R229). DESIGN CHOICE (log entry 3) -/
  rndDraws : Nat
  /-- the model's own: how many choices among several key-downs have been drawn (R212). DESIGN CHOICE (log entry 4) -/
  waitDraws : Nat
  deriving DecidableEq, Repr

/-- A dark framebuffer (R40). -/
def Framebuffer.dark : Framebuffer := Vector.replicate Config.fbHeight (Vector.replicate Config.fbWidth false)

/-- The machine right after reset with no ROM placed (R40, R240): memory lists nothing, so the font is in place and
every other byte is zero. `State.boot` (Load.lean) is reset with a ROM. -/
def State.reset : State where
  mem := []
  v := Vector.replicate 16 0
  i := 0
  pc := 0x200
  sp := 0
  stack := Vector.replicate 16 0
  dt := 0
  st := 0
  key := Vector.replicate 16 false
  fb := Framebuffer.dark
  redraw := false
  exec := .running
  fault := none
  inputs := []
  presents := []
  rndDraws := 0
  waitDraws := 0

end Sys2Proof.Machine
end

