-- ==== Sys2Proof/Machine/Ops.lean ====
section
/-! DEFINITION. The named operations over memory, registers, stack, keypad and framebuffer, and taking a fault. -/

namespace Sys2Proof.Machine

/-! ## Memory (20_memory.md) -/

/-- What an address that memory does not list reads as: the reset content (R40), `FONT` at 0x050..0x09F and zero
elsewhere. -/
def Memory.unlisted (a : Nat) : Byte :=
  if h : Config.fontBase ≤ a ∧ a < Config.fontBase + Config.fontLen then
    Config.font[a - Config.fontBase]'(by omega)
  else 0

/-- The canonical form: addresses strictly rise and exist (R50), and no entry equals what its address reads as
unlisted. -/
abbrev Memory.wf (m : Memory) : Prop :=
  m.Pairwise (fun c d => c.1 < d.1) ∧ ∀ c ∈ m, c.1 < Config.memSize ∧ c.2 ≠ Memory.unlisted c.1

/-- The byte that address `a` holds. -/
def Memory.peek : Memory → Nat → Byte
  | [], a => Memory.unlisted a
  | c :: m, a => if c.1 = a then c.2 else Memory.peek m a

/-- Put a cell before the first cell of a higher address. -/
def Memory.insertCell (c : Host.Cell) : Memory → Memory
  | [] => [c]
  | d :: m => if c.1 < d.1 then c :: d :: m else d :: Memory.insertCell c m

/-- Set the byte of address `a`, keeping the canonical form: a byte equal to the unlisted one is not listed. -/
def Memory.poke (m : Memory) (a : Nat) (b : Byte) : Memory :=
  let others := m.filter (fun c => c.1 ≠ a)
  if b = Memory.unlisted a then others else Memory.insertCell (a, b) others

/-- `read8` (R52): the byte, or the address that does not exist. -/
def Memory.read8 (m : Memory) (a : Nat) : Except Nat Byte :=
  if a < Config.memSize then .ok (m.peek a) else .error a

/-- `write8` (R53): the memory after, or the address that does not exist. -/
def Memory.write8 (m : Memory) (a : Nat) (b : Byte) : Except Nat Memory :=
  if a < Config.memSize then .ok (m.poke a b) else .error a

/-- `read16` (R54), used by fetch alone: big-endian, both addresses must exist. -/
def Memory.read16 (m : Memory) (a : Nat) : Except Nat Word :=
  match m.read8 a with
  | .error e => .error e
  | .ok hi =>
    match m.read8 (a + 1) with
    | .error e => .error e
    | .ok lo => .ok (packWord hi lo)

/-- `n` single-byte reads at rising addresses from `a`. The error is the lowest address that does not exist. -/
def Memory.readBytes (m : Memory) (a : Nat) : Nat → Except Nat (List Byte)
  | 0 => .ok []
  | n + 1 =>
    match m.read8 a with
    | .error e => .error e
    | .ok b =>
      match Memory.readBytes m (a + 1) n with
      | .error e => .error e
      | .ok bs => .ok (b :: bs)

/-- Single-byte writes at rising addresses from `a`. On an error no memory is answered, so nothing is written (R10);
the error is the lowest address that does not exist. -/
def Memory.storeBytes (m : Memory) (a : Nat) : List Byte → Except Nat Memory
  | [] => .ok m
  | b :: bs =>
    match m.write8 a b with
    | .error e => .error e
    | .ok m' => Memory.storeBytes m' (a + 1) bs

/-! ## Registers (10_state.md R21) -/

/-- `V[r]` of a register file. -/
def RegFile.get (v : RegFile) (r : Nibble) : Byte := v[r.toNat]

/-- `V[r] <- b`. -/
def RegFile.set (v : RegFile) (r : Nibble) (b : Byte) : RegFile := Vector.set v r.toNat b

/-- `V[r]`, `V[r+1]`, … <- the bytes, in order (R145). -/
def RegFile.setFrom (v : RegFile) (r : Nibble) : List Byte → RegFile
  | [] => v
  | b :: bs => RegFile.setFrom (RegFile.set v r b) (r + 1) bs

/-- `V[0]`..`V[x]`, in order (R144). -/
def RegFile.upTo (v : RegFile) (x : Nibble) : List Byte := v.toList.take (x.toNat + 1)

/-- `V[r]` (R8). -/
def State.reg (s : State) (r : Nibble) : Byte := RegFile.get s.v r

/-- `V[r] <- b` (R8). -/
def State.setReg (s : State) (r : Nibble) (b : Byte) : State := { s with v := RegFile.set s.v r b }

/-- `STACK[j]` (R28). -/
def State.stackSlot (s : State) (j : Nibble) : Addr := s.stack[j.toNat]

/-- `KEY[k]` (R31). -/
def State.keyPressed (s : State) (k : Nibble) : Bool := s.key[k.toNat]

/-- `KEY[k] <- b`: `press` and `release` of R220. -/
def State.setKey (s : State) (k : Nibble) (b : Bool) : State := { s with key := s.key.set k.toNat b }

/-! ## Framebuffer (10_state.md R32) -/

/-- `FB(x, y)`. Outside the grid, where no access of the machine goes, it is dark. -/
def Framebuffer.pixel (fb : Framebuffer) (x y : Nat) : Bool :=
  if h : x < Config.fbWidth ∧ y < Config.fbHeight then (fb[y]'h.2)[x]'h.1 else false

/-- `FB(x, y) <- b`. Outside the grid, where no access of the machine goes, nothing is written. -/
def Framebuffer.setPixel (fb : Framebuffer) (x y : Nat) (b : Bool) : Framebuffer :=
  if h : x < Config.fbWidth ∧ y < Config.fbHeight then
    Vector.set fb y (Vector.set (fb[y]'h.2) x b h.1) h.2
  else fb

/-! ## Taking a fault (60_exceptions.md R200 to R203) -/

/-- The code of a fault kind (R200, decision D2). -/
def FaultKind.code : FaultKind → Nat
  | .capacityExceeded => 1
  | .unimplementedOpcode => 2
  | .stackOverflow => 3
  | .stackUnderflow => 4
  | .memoryOutOfRange => 5
  | .pcOutOfRange => 6
  | .keyOutOfRange => 7

/-- `FAULT <- r` and `EXEC <- Stopped` (R201), and nothing else (R202). There is no return from it (R206). -/
def State.stopWith (s : State) (r : FaultRecord) : State := { s with fault := some r, exec := .stopped }

/-- A fault before PC has moved, of the fetch (no word, R203) or of the decoding (the fetched word): PC is the faulting
instruction's address (R202). -/
def State.raiseInFetch (s : State) (kind : FaultKind) (word : Option Word) (info : Nat) : State :=
  s.stopWith { kind := kind, pc := some s.pc, word := word, info := .value info }

/-- `raise Fault(kind, info)` of an instruction's execute step (R8, R202): the fetch's advance of PC by 2 is undone,
and the record names the instruction's address and word. -/
def State.raise (s : State) (kind : FaultKind) (word : Word) (info : Nat) : State :=
  { s with pc := s.pc - 2 }.raiseInFetch kind (some word) info

end Sys2Proof.Machine
end

