-- ==== Sys2Proof/Machine/Flags.lean ====
section
/-! DEFINITION. What instructions write to VF (10_state.md R22, R37; 42_alu.md): the only flag of the machine. -/

namespace Sys2Proof.Machine

/-- A flag as the byte written to VF. -/
def flagByte (b : Bool) : Byte := if b then 1 else 0

/-- The carry of 8XY4: the sum is above 255 (R127). -/
def carryFlag (a b : Byte) : Byte := flagByte (a.toNat + b.toNat > 255)

/-- The flag of 8XY5 and 8XY7: the minuend is strictly greater (R128, R130; 90_conflicts.md C7). -/
def greaterFlag (minuend subtrahend : Byte) : Byte := flagByte (minuend.toNat > subtrahend.toNat)

/-- The bit 8XY6 shifts out (R129). -/
def lowBit (b : Byte) : Byte := b &&& 1

/-- The bit 8XYE shifts out (R131). -/
def highBit (b : Byte) : Byte := b >>> 7

/-- The register file after a result in `V[x]` and then a flag in VF, both from operands read before (R127, R128,
R130): for x = 15 the flag remains. -/
def RegFile.setWithFlag (v : RegFile) (x : Nibble) (result flag : Byte) : RegFile :=
  RegFile.set (RegFile.set v x result) flagReg flag

/-- The register file after a shift of `V[x]` (R129, R131): the three readings of `VF_SHIFT_ALIAS`, which agree
unless x = 15. -/
def RegFile.shift (v : RegFile) (x : Nibble) (flag result : Byte → Byte) : RegFile :=
  let old := RegFile.get v x
  match Config.vfShiftAlias with
  | .docOrder =>
    let v1 := RegFile.set v flagReg (flag old)
    RegFile.set v1 x (result (RegFile.get v1 x))
  | .flagWins => RegFile.set (RegFile.set v x (result old)) flagReg (flag old)
  | .resultWins => RegFile.set (RegFile.set v flagReg (flag old)) x (result old)

end Sys2Proof.Machine
end

