-- ==== Sys2Proof/Machine/Alu.lean ====
section
/-! DEFINITION. Register arithmetic (42_alu.md R120 to R132). Byte arithmetic wraps modulo 256 (R126). -/

namespace Sys2Proof.Machine

/-- 6XNN `LD Vx, byte` (R120). -/
def execLdByte (x : Nibble) (nn : Byte) (s : State) : Host.Outcome State Fault Refusal :=
  .next (s.setReg x nn)

/-- 7XNN `ADD Vx, byte` (R121): no flag. -/
def execAddByte (x : Nibble) (nn : Byte) (s : State) : Host.Outcome State Fault Refusal :=
  .next (s.setReg x (s.reg x + nn))

/-- 8XY0 `LD Vx, Vy` (R122). -/
def execLdReg (x y : Nibble) (s : State) : Host.Outcome State Fault Refusal :=
  .next (s.setReg x (s.reg y))

/-- 8XY1 `OR Vx, Vy` (R123): VF is not written. -/
def execOrReg (x y : Nibble) (s : State) : Host.Outcome State Fault Refusal :=
  .next (s.setReg x (s.reg x ||| s.reg y))

/-- 8XY2 `AND Vx, Vy` (R124): VF is not written. -/
def execAndReg (x y : Nibble) (s : State) : Host.Outcome State Fault Refusal :=
  .next (s.setReg x (s.reg x &&& s.reg y))

/-- 8XY3 `XOR Vx, Vy` (R125): VF is not written. -/
def execXorReg (x y : Nibble) (s : State) : Host.Outcome State Fault Refusal :=
  .next (s.setReg x (s.reg x ^^^ s.reg y))

/-- 8XY4 `ADD Vx, Vy` (R127). -/
def execAddReg (x y : Nibble) (s : State) : Host.Outcome State Fault Refusal :=
  .next { s with v := s.v.setWithFlag x (s.reg x + s.reg y) (carryFlag (s.reg x) (s.reg y)) }

/-- 8XY5 `SUB Vx, Vy` (R128). -/
def execSub (x y : Nibble) (s : State) : Host.Outcome State Fault Refusal :=
  .next { s with v := s.v.setWithFlag x (s.reg x - s.reg y) (greaterFlag (s.reg x) (s.reg y)) }

/-- 8XY6 `SHR Vx, Vy` (R129): Y is ignored. -/
def execShr (x _y : Nibble) (s : State) : Host.Outcome State Fault Refusal :=
  .next { s with v := s.v.shift x lowBit (fun b => b >>> 1) }

/-- 8XY7 `SUBN Vx, Vy` (R130). -/
def execSubn (x y : Nibble) (s : State) : Host.Outcome State Fault Refusal :=
  .next { s with v := s.v.setWithFlag x (s.reg y - s.reg x) (greaterFlag (s.reg y) (s.reg x)) }

/-- 8XYE `SHL Vx, Vy` (R131): Y is ignored. -/
def execShl (x _y : Nibble) (s : State) : Host.Outcome State Fault Refusal :=
  .next { s with v := s.v.shift x highBit (fun b => b <<< 1) }

/-- CXNN `RND Vx, byte` (R132): the next byte of the random oracle, masked; the draw is consumed whatever NN is. -/
def execRnd (x : Nibble) (nn : Byte) (s : State) : Host.Outcome State Fault Refusal :=
  .next { s.setReg x (Config.randomByte s.rndDraws &&& nn) with rndDraws := s.rndDraws + 1 }

end Sys2Proof.Machine
end

