-- ==== Sys2Proof/Machine/Operands.lean ====
section
/-! DEFINITION. Operand forms: addresses and bytes computed from fields and registers (30_encoding.md R72;
00_scope.md R7), and the skip primitive (41_skip.md R110). -/

namespace Sys2Proof.Machine

/-- NNN + V[0], masked to 12 bits (R103). -/
def indexedTarget (nnn : Addr) (v0 : Byte) : Addr := BitVec.ofNat 12 (nnn.toNat + v0.toNat)

/-- I + V[x], masked to 12 bits (R141). -/
def indexPlus (i : Addr) (b : Byte) : Addr := BitVec.ofNat 12 (i.toNat + b.toNat)

/-- FONT_BASE + V[x] * 5, masked to 12 bits; the whole byte counts (R142). -/
def glyphAddr (b : Byte) : Addr := BitVec.ofNat 12 (Config.fontBase + b.toNat * 5)

/-- The decimal digits of a byte: hundreds, tens, ones (R143). -/
def bcdDigits (b : Byte) : List Byte :=
  [BitVec.ofNat 8 (b.toNat / 100), BitVec.ofNat 8 (b.toNat / 10 % 10), BitVec.ofNat 8 (b.toNat % 10)]

/-- A byte as a key number, if it is one (R115). -/
def keyOperand (b : Byte) : Option Nibble := if b.toNat > 15 then none else some (b.setWidth 4)

/-- `Skip()` (R110) of the instruction `i`: past one more word, or `PcOutOfRange`. -/
def State.skip (s : State) (i : Instr) : State :=
  if s.pc.toNat + 2 > 4095 then s.raise .pcOutOfRange (encode i) (s.pc.toNat + 2)
  else { s with pc := s.pc + 2 }

/-- `if c: Skip()` (R111 to R116). -/
def State.skipIf (s : State) (i : Instr) (c : Bool) : State := if c then s.skip i else s

end Sys2Proof.Machine
end

