-- ==== Sys2Proof/Machine/Display.lean ====
section
/-! DEFINITION. Display (44_display.md R150 to R152). -/

namespace Sys2Proof.Machine

/-- What drawing works on: the framebuffer and the collision flag that ends in VF. -/
structure Canvas where
  fb : Framebuffer
  hit : Bool
  deriving DecidableEq, Repr

/-- DrawPixel (R152). -/
def Canvas.drawPixel (c : Canvas) (px py : Nat) (bit : Bool) : Canvas :=
  if bit && c.fb.pixel px py then { fb := c.fb.setPixel px py false, hit := true }
  else { c with fb := c.fb.setPixel px py (xor bit (c.fb.pixel px py)) }

/-- The bits of a sprite byte, most significant first (R151). -/
def spriteBits (b : Byte) : List Bool :=
  [b.getLsbD 7, b.getLsbD 6, b.getLsbD 5, b.getLsbD 4, b.getLsbD 3, b.getLsbD 2, b.getLsbD 1, b.getLsbD 0]

/-- One row of a sprite from column `px` on, clipped at the right edge (R151). -/
def Canvas.drawRow (c : Canvas) (px py : Nat) : List Bool → Canvas
  | [] => c
  | bit :: bits => if px > 63 then c else Canvas.drawRow (c.drawPixel px py bit) (px + 1) py bits

/-- The rows of a sprite from row `py` down (R151). -/
def Canvas.drawRows (c : Canvas) (px py : Nat) : List Byte → Canvas
  | [] => c
  | b :: bs => Canvas.drawRows (c.drawRow px py (spriteBits b)) px (py + 1) bs

/-- 00E0 `CLS` (R150). -/
def execCls (s : State) : Host.Outcome State Fault Refusal :=
  .next { s with fb := Framebuffer.dark, redraw := true }

/-- The start column of DXYN: V[x] mod 64 (R151). -/
def drawColumn (b : Byte) : Nat := b.toNat % 64

/-- The start row of DXYN: V[y] mod 32 (R151). -/
def drawTop (b : Byte) : Nat := b.toNat % 32

/-- The number of rows DXYN draws and reads: those above the bottom edge (R151). -/
def drawnRows (n : Nibble) (top : Nat) : Nat := min n.toNat (32 - top)

/-- DXYN `DRW Vx, Vy, nibble` (R151): the coordinates are read before VF is reset; VF ends as the collision flag. -/
def execDrw (x y n : Nibble) (s : State) : Host.Outcome State Fault Refusal :=
  let x0 := drawColumn (s.reg x)
  let y0 := drawTop (s.reg y)
  match s.mem.readBytes s.i.toNat (drawnRows n y0) with
  | .error a => .next (s.raise .memoryOutOfRange (encode (.drw x y n)) a)
  | .ok rows =>
    let c := Canvas.drawRows { fb := s.fb, hit := false } x0 y0 rows
    .next { s with v := RegFile.set s.v flagReg (if c.hit then 1 else 0), fb := c.fb, redraw := true }

end Sys2Proof.Machine
end

