-- ==== Sys2Proof/Machine/Flow.lean ====
section
/-! DEFINITION. Control transfer (40_flow.md R100 to R104). In every meaning PC holds the address after the
instruction's word, as fetch leaves it (R12, R214); a fault puts it back (R202). -/

namespace Sys2Proof.Machine

/-- 1NNN `JP addr` (R100). -/
def execJp (nnn : Addr) (s : State) : Host.Outcome State Fault Refusal :=
  .next { s with pc := nnn }

/-- 2NNN `CALL addr` (R101): increment SP, store PC in the new slot, jump; fatal at SP = 15. -/
def execCall (nnn : Addr) (s : State) : Host.Outcome State Fault Refusal :=
  if s.sp = 15 then .next (s.raise .stackOverflow (encode (.call nnn)) s.sp.toNat)
  else .next { s with sp := s.sp + 1, stack := s.stack.set (s.sp + 1).toNat s.pc, pc := nnn }

/-- 00EE `RET` (R102): jump to the slot at SP, decrement SP; fatal at SP = 0. The slot is not cleared (R28). -/
def execRet (s : State) : Host.Outcome State Fault Refusal :=
  if s.sp = 0 then .next (s.raise .stackUnderflow (encode .ret) s.sp.toNat)
  else .next { s with pc := s.stackSlot s.sp, sp := s.sp - 1 }

/-- BNNN `JP V0, addr` (R103). -/
def execJpV0 (nnn : Addr) (s : State) : Host.Outcome State Fault Refusal :=
  .next { s with pc := indexedTarget nnn (s.reg 0) }

end Sys2Proof.Machine
end

