-- ==== Sys2Proof/Machine/IndexMemory.lean ====
section
/-! DEFINITION. Index register and memory transfer (43_index_memory.md R140 to R145). -/

namespace Sys2Proof.Machine

/-- ANNN `LD I, addr` (R140). -/
def execLdI (nnn : Addr) (s : State) : Host.Outcome State Fault Refusal :=
  .next { s with i := nnn }

/-- FX1E `ADD I, Vx` (R141): no flag. -/
def execAddI (x : Nibble) (s : State) : Host.Outcome State Fault Refusal :=
  .next { s with i := indexPlus s.i (s.reg x) }

/-- FX29 `LD F, Vx` (R142). -/
def execLdF (x : Nibble) (s : State) : Host.Outcome State Fault Refusal :=
  .next { s with i := glyphAddr (s.reg x) }

/-- Store bytes from address I on for the instruction `i`, all of them or, with `MemoryOutOfRange`, none (R10, R143,
R144). I is not changed. -/
def State.storeAtI (s : State) (i : Instr) (bytes : List Byte) : State :=
  match s.mem.storeBytes s.i.toNat bytes with
  | .error a => s.raise .memoryOutOfRange (encode i) a
  | .ok m => { s with mem := m }

/-- FX33 `LD B, Vx` (R143). -/
def execLdB (x : Nibble) (s : State) : Host.Outcome State Fault Refusal :=
  .next (s.storeAtI (.ldB x) (bcdDigits (s.reg x)))

/-- FX55 `LD [I], Vx` (R144). -/
def execStoreRegs (x : Nibble) (s : State) : Host.Outcome State Fault Refusal :=
  .next (s.storeAtI (.storeRegs x) (s.v.upTo x))

/-- FX65 `LD Vx, [I]` (R145). -/
def execLoadRegs (x : Nibble) (s : State) : Host.Outcome State Fault Refusal :=
  match s.mem.readBytes s.i.toNat (x.toNat + 1) with
  | .error a => .next (s.raise .memoryOutOfRange (encode (.loadRegs x)) a)
  | .ok bytes => .next { s with v := s.v.setFrom 0 bytes }

end Sys2Proof.Machine
end

