-- ==== Sys2Proof/Machine/Skips.lean ====
section
/-! DEFINITION. The six skips (41_skip.md R111 to R116) over the skip primitive of R110. -/

namespace Sys2Proof.Machine

/-- 3XNN `SE Vx, byte` (R111). -/
def execSeByte (x : Nibble) (nn : Byte) (s : State) : Host.Outcome State Fault Refusal :=
  .next (s.skipIf (.seByte x nn) (s.reg x == nn))

/-- 4XNN `SNE Vx, byte` (R112). -/
def execSneByte (x : Nibble) (nn : Byte) (s : State) : Host.Outcome State Fault Refusal :=
  .next (s.skipIf (.sneByte x nn) (s.reg x != nn))

/-- 5XY0 `SE Vx, Vy` (R113). -/
def execSeReg (x y : Nibble) (s : State) : Host.Outcome State Fault Refusal :=
  .next (s.skipIf (.seReg x y) (s.reg x == s.reg y))

/-- 9XY0 `SNE Vx, Vy` (R114). -/
def execSneReg (x y : Nibble) (s : State) : Host.Outcome State Fault Refusal :=
  .next (s.skipIf (.sneReg x y) (s.reg x != s.reg y))

/-- EX9E `SKP Vx` (R115): `KeyOutOfRange` is checked before the skip's own fault (R204). -/
def execSkp (x : Nibble) (s : State) : Host.Outcome State Fault Refusal :=
  match keyOperand (s.reg x) with
  | none => .next (s.raise .keyOutOfRange (encode (.skp x)) (s.reg x).toNat)
  | some k => .next (s.skipIf (.skp x) (s.keyPressed k))

/-- EXA1 `SKNP Vx` (R116). -/
def execSknp (x : Nibble) (s : State) : Host.Outcome State Fault Refusal :=
  match keyOperand (s.reg x) with
  | none => .next (s.raise .keyOutOfRange (encode (.sknp x)) (s.reg x).toNat)
  | some k => .next (s.skipIf (.sknp x) (!s.keyPressed k))

end Sys2Proof.Machine
end

