-- ==== Sys2Proof/Machine/TimerKeypad.lean ====
section
/-! DEFINITION. Timers and key wait (45_timer_keypad.md R160 to R163). -/

namespace Sys2Proof.Machine

/-- FX07 `LD Vx, DT` (R160). -/
def execLdVxDt (x : Nibble) (s : State) : Host.Outcome State Fault Refusal :=
  .next (s.setReg x s.dt)

/-- FX0A `LD Vx, K` (R161): V[x] is written when the wait completes (R212), not here. -/
def execLdVxK (x : Nibble) (s : State) : Host.Outcome State Fault Refusal :=
  .next { s with exec := .waitingForKey x }

/-- FX15 `LD DT, Vx` (R162). -/
def execLdDtVx (x : Nibble) (s : State) : Host.Outcome State Fault Refusal :=
  .next { s with dt := s.reg x }

/-- FX18 `LD ST, Vx` (R163). -/
def execLdStVx (x : Nibble) (s : State) : Host.Outcome State Fault Refusal :=
  .next { s with st := s.reg x }

end Sys2Proof.Machine
end

