-- ==== Sys2Proof/Machine/Tick.lean ====
section
/-! DEFINITION. The tick and its six phases (60_exceptions.md R209 to R217). -/

namespace Sys2Proof.Machine

/-! ## Phase 1 -/

/-- One step of a timer, never below 0 (R210). -/
def timerStep (t : Byte) : Byte := if t = 0 then 0 else t - 1

/-- Phase 1, timer countdown (R210). -/
def State.countdown (s : State) : State := { s with dt := timerStep s.dt, st := timerStep s.st }

/-! ## Phase 2 -/

/-- The events the host gives this tick (R225): none once the list of inputs is used up. -/
def State.events (s : State) : List Event := s.inputs.headD []

/-- One event's effect on KEY (R211). -/
def State.applyEvent (s : State) : Event → State
  | .keyDown k => s.setKey k true
  | .keyUp k => s.setKey k false
  | .quit => s

/-- Phase 2's events applied to KEY in order, Quit notwithstanding (R211, decision D24), and the input consumed. -/
def State.syncInput (s : State) : State :=
  { s.events.foldl State.applyEvent s with inputs := s.inputs.tail }

/-- The key-downs observed in a tick, each once, in rising order: the set D of R211. -/
def keyDowns (events : List Event) : List Nibble :=
  ((List.range 16).map (BitVec.ofNat 4)).filter (fun k => events.contains (.keyDown k))

/-! ## Phase 3 -/

/-- The wait for a key with destination `d` ends with key `k` (R212). -/
def State.endWait (s : State) (d k : Nibble) : State :=
  { s.setReg d (k.setWidth 8) with exec := .running }

/-- Phase 3, wait-for-key completion (R212). With several key-downs any of them may be the one: a free value. -/
def State.completeWait (s : State) (downs : List Nibble) : State :=
  match s.exec with
  | .waitingForKey d =>
    match downs with
    | [] => s
    | [k] => s.endWait d k
    | k :: ks =>
      { s.endWait d ((k :: ks).getD (Config.waitChoice s.waitDraws % (k :: ks).length) k) with
        waitDraws := s.waitDraws + 1 }
  | _ => s

/-! ## Phase 5 -/

/-- Phase 5, fetch, decode and execute (R214), with the checks in the order of R204. A fault is taken as R201 to
R203 say. The advance of PC is part of the fetch (R25, R214), so its `PcOutOfRange` records no word either (R203). -/
def State.fetchExecute (s : State) : Host.Outcome State Fault Refusal :=
  match s.mem.read16 s.pc.toNat with
  | .error a => .next (s.raiseInFetch .memoryOutOfRange none a)
  | .ok w =>
    if s.pc.toNat + 2 > 4095 then .next (s.raiseInFetch .pcOutOfRange none (s.pc.toNat + 2))
    else
      match decodeWord w with
      | none => .next (s.raiseInFetch .unimplementedOpcode (some w) w.toNat)
      | some i => Machine.exec i { s with pc := s.pc + 2 }

/-! ## Phase 6 -/

/-- Phase 6, redraw signalling (R215), of a tick that did not stop the machine (R201, R211). -/
def State.signalRedraw (s : State) : State :=
  if s.exec = .stopped then s
  else if s.redraw then { s with presents := s.fb :: s.presents, redraw := false }
  else s

/-- Phases 4 to 6 (R213 to R215): an instruction runs only in `Running`. -/
def State.dispatch (s : State) : Host.Outcome State Fault Refusal :=
  if s.exec = .running then
    match s.fetchExecute with
    | .next s' => .next s'.signalRedraw
    | .fault r => .fault r
    | .refused r => .refused r
  else .next s.signalRedraw

/-- The state phases 1 and 2 leave (R210, R211). -/
def State.afterInput (s : State) : State := s.countdown.syncInput

/-- The state phases 1 to 3 leave, from which phase 4 decides whether an instruction runs (R212, R213). -/
def State.beforeFetch (s : State) : State := s.afterInput.completeWait (keyDowns s.events)

/-- One tick (R209). In `Stopped` no tick runs (R216). Quit ends the tick after phase 2 (R211). -/
def State.tick (s : State) : Host.Outcome State Fault Refusal :=
  if s.exec = .stopped then .fault .runEnded
  else if s.events.contains .quit then .next { s.afterInput with exec := .stopped }
  else s.beforeFetch.dispatch

end Sys2Proof.Machine
end

