-- ==== Sys2Proof/Machine/Step.lean ====
section
/-! DEFINITION. The step of the machine, one tick (60_exceptions.md R209), and the host's way to place one
instruction where the next tick fetches it. -/

namespace Sys2Proof.Machine

/-- One step: one tick (R209). -/
def step (s : State) : Host.Outcome State Fault Refusal := s.tick

/-- `s` with the instruction whose bits are `w` stored where the next tick fetches (high byte first, R56), the driver
Running, and a tick without events next, so that the tick fetches it (log entry 12). Bits at and above `nbits` are
zero. At PC = 4095 there is no place for two bytes and memory stays as it is. -/
def State.withFetchWord (s : State) (nbits w : Nat) : State :=
  let bits : Word := BitVec.ofNat 16 (w % 2 ^ nbits)
  let mem :=
    match s.mem.storeBytes s.pc.toNat [bits.extractLsb' 8 8, bits.extractLsb' 0 8] with
    | .ok m => m
    | .error _ => s.mem
  { s with mem := mem, exec := .running, inputs := [] :: s.inputs }

end Sys2Proof.Machine
end

