-- ==== Sys2Proof/Machine/Load.lean ====
section
/-! DEFINITION. Reset with a font and a ROM (70_reset_and_hazards.md R240, R241) over the loader's bulk write
(20_memory.md R55). -/

namespace Sys2Proof.Machine

/-- Bytes put at rising addresses, with no check of their own. -/
def Memory.pokeAll (m : Memory) (a : Nat) : List Byte → Memory
  | [] => m
  | b :: bs => Memory.pokeAll (m.poke a b) (a + 1) bs

/-- `writeBytes(bytes, offset)` (R55): `none` is `CapacityExceeded`, with nothing written. The bound is `≥` as the
spec keeps it. -/
def Memory.writeBytes (m : Memory) (bytes : List Byte) (offset : Nat) : Option Memory :=
  if offset + bytes.length ≥ Config.memSize then none else some (m.pokeAll offset bytes)

/-- A load that failed (R241): the fault is recorded and no tick runs. DEDUCED (log entry 10): EXEC is `Stopped`. -/
def State.loadFailed (s : State) (offset length : Nat) : State :=
  s.stopWith { kind := .capacityExceeded, pc := none, word := none, info := .load offset length }

/-- Reset with this font and this ROM, in the order of R240. -/
def State.bootWith (font : Vector Byte Config.fontLen) (rom : List Byte) : State :=
  match Memory.writeBytes State.reset.mem font.toList Config.fontBase with
  | none => State.reset.loadFailed Config.fontBase Config.fontLen
  | some m =>
    match m.writeBytes rom Config.romBase with
    | none => { State.reset with mem := m }.loadFailed Config.romBase rom.length
    | some m' => { State.reset with mem := m' }

/-- Reset of this machine (its own FONT) with a ROM (R240). -/
def State.boot (rom : List Byte) : State := State.bootWith Config.font rom

end Sys2Proof.Machine
end

