-- ==== Sys2Proof/Safety.lean ====
section
/-! DEFINITION. What counts as a good state and a safe run, and which state each instruction may write, in the terms
the statements use. -/

namespace Sys2Proof

/-! ## What each instruction may write -/

/-- The general registers an instruction's execute step may write, besides VF as a flag: the table of R23. -/
def Instr.destRegs : Instr → List Nibble
  | .ldByte x _ | .addByte x _ | .ldReg x _ | .orReg x _ | .andReg x _ | .xorReg x _ | .addReg x _ | .sub x _
  | .shr x _ | .subn x _ | .shl x _ | .rnd x _ | .ldVxDt x => [x]
  | .loadRegs x => (List.range (x.toNat + 1)).map (BitVec.ofNat 4)
  | .cls | .ret | .jp _ | .call _ | .seByte _ _ | .sneByte _ _ | .seReg _ _ | .sneReg _ _ | .ldI _ | .jpV0 _
  | .drw _ _ _ | .skp _ | .sknp _ | .ldVxK _ | .ldDtVx _ | .ldStVx _ | .addI _ | .ldF _ | .ldB _ | .storeRegs _ => []

/-- The instruction writes VF as a flag (R22, R23). -/
def Instr.writesFlag : Instr → Bool
  | .addReg _ _ | .sub _ _ | .shr _ _ | .subn _ _ | .shl _ _ | .drw _ _ _ => true
  | .cls | .ret | .jp _ | .call _ | .seByte _ _ | .sneByte _ _ | .seReg _ _ | .sneReg _ _ | .ldI _ | .jpV0 _
  | .ldByte _ _ | .addByte _ _ | .ldReg _ _ | .orReg _ _ | .andReg _ _ | .xorReg _ _ | .rnd _ _ | .ldVxDt _
  | .loadRegs _ | .skp _ | .sknp _ | .ldVxK _ | .ldDtVx _ | .ldStVx _ | .addI _ | .ldF _ | .ldB _
  | .storeRegs _ => false

/-- How many bytes the instruction stores, from address I on: the table of R58. -/
def Instr.storeLength : Instr → Nat
  | .ldB _ => 3
  | .storeRegs x => x.toNat + 1
  | .cls | .ret | .jp _ | .call _ | .seByte _ _ | .sneByte _ _ | .seReg _ _ | .sneReg _ _ | .ldI _ | .jpV0 _
  | .ldByte _ _ | .addByte _ _ | .ldReg _ _ | .orReg _ _ | .andReg _ _ | .xorReg _ _ | .addReg _ _ | .sub _ _
  | .shr _ _ | .subn _ _ | .shl _ _ | .rnd _ _ | .drw _ _ _ | .ldVxDt _ | .loadRegs _ | .skp _ | .sknp _
  | .ldVxK _ | .ldDtVx _ | .ldStVx _ | .addI _ | .ldF _ => 0

end Sys2Proof

namespace Sys2Proof.Machine

/-! ## Good states and the end of a run -/

/-- The word that a fetch at PC reads (R54, R70). -/
def State.wordAtPc (s : State) : Word := packWord (s.mem.peek s.pc.toNat) (s.mem.peek (s.pc.toNat + 1))

/-- The coming tick executes the instruction `i`: it is not ended by Quit, it reaches phase 5, the fetch is in range
and the bytes at PC decode to `i` (R209, R213, R214). -/
abbrev State.Executes (s : State) (i : Instr) : Prop :=
  .quit ∉ s.events ∧ s.beforeFetch.exec = .running ∧ s.pc.toNat + 2 ≤ 4095 ∧ decodeWord s.wordAtPc = some i

/-- How a process ends (R228): the nonzero value is not specified. -/
inductive ExitStatus where
  | zero
  | nonzero
  deriving DecidableEq, Repr

/-- The exit status of a run that has ended in this state (R228, R230); `none` while it has not ended. -/
def State.exitStatus (s : State) : Option ExitStatus :=
  if s.fault.isSome then some .nonzero
  else if s.exec = .stopped then some .zero
  else none

/-- No fault has ended the run (R230). -/
abbrev State.Safe (s : State) : Prop := s.fault = none

/-- A fault record says what R203 requires of it in this state: a fault of an instruction names the address PC still
holds (R202), and every fault has stopped the machine (R201). -/
abbrev State.FaultOk (s : State) : Prop :=
  ∀ r, s.fault = some r → s.exec = .stopped ∧ (r.kind ≠ .capacityExceeded → r.pc = some s.pc)

/-- The invariant every tick keeps: canonical memory, the fault record in order, and no redraw pending between the
ticks of a machine that has not stopped (R215). -/
structure State.Inv (s : State) : Prop where
  memWf : s.mem.wf
  faultOk : s.FaultOk
  redrawClear : s.exec ≠ .stopped → s.redraw = false

/-- The pixel (x, y) lies in the clipped area of a sprite of `rows` rows at (x0, y0) (R151). -/
abbrev inSprite (x0 y0 rows x y : Nat) : Prop := x0 ≤ x ∧ x ≤ x0 + 7 ∧ x < 64 ∧ y0 ≤ y ∧ y < y0 + rows

/-- The sprite's bit for the pixel (x, y): row y - y0 of the sprite at address `i`, most significant bit leftmost
(R151). -/
def spriteBit (m : Memory) (i x0 y0 x y : Nat) : Bool := (m.peek (i + (y - y0))).getLsbD (7 - (x - x0))

/-- Every row that the sprite draws can be read: "rows > 0 and I + rows - 1 > 4095" does not hold (R151). -/
abbrev spriteInMemory (i rows : Nat) : Prop := rows = 0 ∨ i + rows - 1 ≤ 4095

/-! ## The shapes that statements about instructions share -/

/-- The instruction's word lies in the row of R74 with this match and mask. -/
abbrev InRow (i : Instr) (matchBits mask : Word) : Prop := encode i &&& mask = matchBits

/-- The instruction takes a fault (R200 to R203): PC is its own address again, the record names that address, the
word, the kind and the info, the machine is Stopped, and nothing else has changed. -/
def TakesFault (i : Instr) (s : State) (kind : FaultKind) (info : Nat) : Prop :=
  exec i s = .next
    { s with
      pc := s.pc - 2
      exec := .stopped
      fault := some { kind := kind, pc := some (s.pc - 2), word := some (encode i), info := .value info } }

/-- The instruction completes with `b` in register `x`, every other register and all other state unchanged. -/
def WritesReg (i : Instr) (s : State) (x : Nibble) (b : Byte) : Prop :=
  ∃ t, exec i s = .next t ∧ (∀ r, t.reg r = if r = x then b else s.reg r) ∧ t = { s with v := t.v }

/-- The instruction completes with the flag `f` in VF, `b` in register `x` if that is not VF, every other register and
all other state unchanged. -/
def WritesRegAndFlag (i : Instr) (s : State) (x : Nibble) (b f : Byte) : Prop :=
  ∃ t, exec i s = .next t ∧
    (∀ r, t.reg r = if r = flagReg then f else if r = x then b else s.reg r) ∧ t = { s with v := t.v }

/-- The instruction skips exactly when `c` holds (R110): it then completes with PC two further, or takes
`PcOutOfRange` where that passes 4095; otherwise it changes nothing. -/
def SkipsWhen (i : Instr) (s : State) (c : Prop) : Prop :=
  (¬ c → exec i s = .next s) ∧
  (c → s.pc.toNat + 2 ≤ 4095 →
    ∃ t, exec i s = .next t ∧ t.pc.toNat = s.pc.toNat + 2 ∧ t = { s with pc := t.pc }) ∧
  (c → s.pc.toNat + 2 > 4095 → TakesFault i s .pcOutOfRange (s.pc.toNat + 2))

/-- What an ordered event list leaves a key in that was `old` before it (R211): the last event about the key decides. -/
def keyAfter (k : Nibble) (old : Bool) (events : List Event) : Bool :=
  match events.reverse.find? (fun e => e == .keyDown k || e == .keyUp k) with
  | some e => e == .keyDown k
  | none => old

/-- When the execute step of an instruction at PC of `s` may raise a fault of this kind with this info: the "Faults"
lines of R100 to R163. -/
def ExecFaultCause (s : State) (kind : FaultKind) (info : Nat) : Instr → Prop
  | .call _ => kind = .stackOverflow ∧ s.sp.toNat = 15 ∧ info = 15
  | .ret => kind = .stackUnderflow ∧ s.sp.toNat = 0 ∧ info = 0
  | .seByte _ _ | .sneByte _ _ | .seReg _ _ | .sneReg _ _ =>
    kind = .pcOutOfRange ∧ s.pc.toNat + 4 > 4095 ∧ info = s.pc.toNat + 4
  | .skp x | .sknp x =>
    let k := (s.beforeFetch.reg x).toNat
    (kind = .keyOutOfRange ∧ k > 15 ∧ info = k) ∨
      (kind = .pcOutOfRange ∧ k ≤ 15 ∧ s.pc.toNat + 4 > 4095 ∧ info = s.pc.toNat + 4)
  | .drw _ y n =>
    kind = .memoryOutOfRange ∧ info = 4096 ∧
      ¬ spriteInMemory s.i.toNat (min n.toNat (32 - (s.beforeFetch.reg y).toNat % 32))
  | .ldB _ => kind = .memoryOutOfRange ∧ info = 4096 ∧ s.i.toNat + 2 > 4095
  | .storeRegs x | .loadRegs x => kind = .memoryOutOfRange ∧ info = 4096 ∧ s.i.toNat + x.toNat > 4095
  | .cls | .jp _ | .ldI _ | .jpV0 _ | .ldByte _ _ | .addByte _ _ | .ldReg _ _ | .orReg _ _ | .andReg _ _
  | .xorReg _ _ | .addReg _ _ | .sub _ _ | .shr _ _ | .subn _ _ | .shl _ _ | .rnd _ _ | .ldVxDt _ | .ldVxK _
  | .ldDtVx _ | .ldStVx _ | .addI _ | .ldF _ => False

end Sys2Proof.Machine
end

