-- ==== Sys2Proof/Certificates/Slice0/Obligations.lean ====
section
/-! DEFINITION. The statements for the provers. In a statement about `exec`, PC is the address after the instruction's
word, as fetch leaves it (R12, R214); `t = { s with f := t.f }` says that only the field f may differ. -/

open Sys2Proof Sys2Proof.Machine

/-! ## Encoding (30_encoding.md) -/

/-- Decoding an encoded instruction gives it back, from its word and from its two bytes in address order, whatever
bytes follow (R70, R73, R74). -/
def Obligations.DecodeOfEncode : Prop :=
  ∀ (i : Instr) (rest : List Byte),
    decodeWord (encode i) = some i ∧ decodeBytes (encodeBytes i ++ rest) = .ok (i, rest)

/-- A word that decodes is the word of its instruction: no bit of it is dropped (R74). That every fixed bit is checked
is the spec's decision D6. -/
def Obligations.EncodeOfDecode : Prop :=
  ∀ (w : Word) (i : Instr), decodeWord w = some i → encode i = w

/-- Decoding is the decode map of R74: a decoded word matches its instruction's row, a word that matches some row
decodes, one that matches none is unrecognized, and the rows are pairwise disjoint. That every fixed bit is checked is
the spec's decision D6. -/
def Obligations.DecodeFollowsTheMap : Prop :=
  (∀ i : Instr, i.row ∈ opcodeRows) ∧
  (∀ (w : Word) (i : Instr), decodeWord w = some i → w &&& i.row.2 = i.row.1) ∧
  (∀ w : Word, decodeWord w = none ↔ ∀ r ∈ opcodeRows, w &&& r.2 ≠ r.1) ∧
  opcodeRows.Pairwise (fun r q => ∀ w : Word, ¬ (w &&& r.2 = r.1 ∧ w &&& q.2 = q.1))

/-- The words that decode are those of the prose of R75. R75 is the spec's own derivation from R74 (decision D6). -/
def Obligations.RecognisedWordsByClass : Prop :=
  ∀ w : Word, (decodeWord w).isSome = wordRecognised w

/-- Words written out from the spec's encodings, one or two a family, decode to the instructions they stand for. -/
def Obligations.SampleWordsDecode : Prop :=
  decodeWord 0b0010001100000000#16 = some (.call 0x300) ∧
  decodeWord 0b0101000100100000#16 = some (.seReg 1 2) ∧
  decodeWord 0b1110010110100001#16 = some (.sknp 5) ∧
  decodeWord 0b1000000000011110#16 = some (.shl 0 1) ∧
  decodeWord 0b1111001001100101#16 = some (.loadRegs 2) ∧
  decodeWord 0b1101000000010101#16 = some (.drw 0 1 5) ∧
  decodeWord 0b1111001000001010#16 = some (.ldVxK 2)

/-! ## Control transfer (40_flow.md) -/

/-- 1NNN: PC <- NNN, and nothing else changes (R100). -/
def Obligations.JumpSetsPc : Prop :=
  ∀ (nnn : Addr) (s : State),
    InRow (.jp nnn) 0x1000 0xF000 ∧
    ∃ t, exec (.jp nnn) s = .next t ∧ t.pc = nnn ∧ t = { s with pc := t.pc }

/-- BNNN: PC <- (NNN + V0) mod 4096, and nothing else changes (R103). -/
def Obligations.IndexedJumpWraps : Prop :=
  ∀ (nnn : Addr) (s : State),
    InRow (.jpV0 nnn) 0xB000 0xF000 ∧
    ∃ t, exec (.jpV0 nnn) s = .next t ∧ t.pc.toNat = (nnn.toNat + (s.reg 0).toNat) % 4096 ∧
      t = { s with pc := t.pc }

/-- 2NNN: SP is incremented, the new slot receives PC, every other slot stays, PC <- NNN; at SP = 15 it takes
StackOverflow (R101). What a fault leaves and what its record holds are the spec's decisions D1 and D27. -/
def Obligations.CallPushesReturnAddress : Prop :=
  ∀ (nnn : Addr) (s : State),
    InRow (.call nnn) 0x2000 0xF000 ∧
    (s.sp ≠ 15 →
      ∃ t, exec (.call nnn) s = .next t ∧ t.sp.toNat = s.sp.toNat + 1 ∧
        (∀ j, t.stackSlot j = if j = t.sp then s.pc else s.stackSlot j) ∧ t.pc = nnn ∧
        t = { s with sp := t.sp, stack := t.stack, pc := t.pc }) ∧
    (s.sp = 15 → TakesFault (.call nnn) s .stackOverflow 15)

/-- 00EE: PC <- STACK[SP], SP is decremented, the slot stays; at SP = 0 it takes StackUnderflow (R102). What a fault
leaves and what its record holds are the spec's decisions D1 and D27. -/
def Obligations.ReturnPopsReturnAddress : Prop :=
  ∀ s : State,
    InRow .ret 0x00EE 0xFFFF ∧
    (s.sp ≠ 0 →
      ∃ t, exec .ret s = .next t ∧ t.pc = s.stackSlot s.sp ∧ t.sp.toNat = s.sp.toNat - 1 ∧
        t = { s with sp := t.sp, pc := t.pc }) ∧
    (s.sp = 0 → TakesFault .ret s .stackUnderflow 0)

/-- A return that finds the stack as a call left it goes to the address after the call and restores SP, whatever else
has happened between the two (R101, R102). -/
def Obligations.ReturnUndoesCall : Prop :=
  ∀ (nnn : Addr) (s t u : State), s.sp ≠ 15 → exec (.call nnn) s = .next t → u.sp = t.sp → u.stack = t.stack →
    ∃ w, exec .ret u = .next w ∧ w.pc = s.pc ∧ w.sp = s.sp ∧ w = { u with pc := w.pc, sp := w.sp }

/-! ## Skips (41_skip.md) -/

/-- 3XNN, 4XNN, 5XY0 and 9XY0 skip exactly when their comparison holds (R110 to R114). PcOutOfRange is the spec's
decision D4. What a fault leaves and what its record holds are the spec's decisions D1 and D27. -/
def Obligations.CompareSkips : Prop :=
  ∀ (x y : Nibble) (nn : Byte) (s : State),
    (InRow (.seByte x nn) 0x3000 0xF000 ∧ SkipsWhen (.seByte x nn) s (s.reg x = nn)) ∧
    (InRow (.sneByte x nn) 0x4000 0xF000 ∧ SkipsWhen (.sneByte x nn) s (s.reg x ≠ nn)) ∧
    (InRow (.seReg x y) 0x5000 0xF00F ∧ SkipsWhen (.seReg x y) s (s.reg x = s.reg y)) ∧
    (InRow (.sneReg x y) 0x9000 0xF00F ∧ SkipsWhen (.sneReg x y) s (s.reg x ≠ s.reg y))

/-- EX9E and EXA1 take KeyOutOfRange above 15, and otherwise skip exactly when the key is, or is not, pressed (R115,
R116). KeyOutOfRange is the spec's decision D13, PcOutOfRange D4. What a fault leaves and what its record holds are
the spec's decisions D1 and D27. -/
def Obligations.KeySkips : Prop :=
  ∀ (x : Nibble) (s : State),
    (InRow (.skp x) 0xE09E 0xF0FF ∧ InRow (.sknp x) 0xE0A1 0xF0FF) ∧
    ((s.reg x).toNat > 15 →
      TakesFault (.skp x) s .keyOutOfRange (s.reg x).toNat ∧
      TakesFault (.sknp x) s .keyOutOfRange (s.reg x).toNat) ∧
    (∀ k : Nibble, (s.reg x).toNat = k.toNat →
      SkipsWhen (.skp x) s (s.keyPressed k = true) ∧ SkipsWhen (.sknp x) s (s.keyPressed k = false))

/-! ## Register arithmetic (42_alu.md) -/

/-- 6XNN, 8XY0 and FX07 put NN, V[y] and DT into V[x] (R120, R122, R160). -/
def Obligations.RegisterLoads : Prop :=
  ∀ (x y : Nibble) (nn : Byte) (s : State),
    (InRow (.ldByte x nn) 0x6000 0xF000 ∧ WritesReg (.ldByte x nn) s x nn) ∧
    (InRow (.ldReg x y) 0x8000 0xF00F ∧ WritesReg (.ldReg x y) s x (s.reg y)) ∧
    (InRow (.ldVxDt x) 0xF007 0xF0FF ∧ WritesReg (.ldVxDt x) s x s.dt)

/-- 7XNN adds modulo 256 and writes no flag (R121). -/
def Obligations.AddImmediateWraps : Prop :=
  ∀ (x : Nibble) (nn : Byte) (s : State),
    InRow (.addByte x nn) 0x7000 0xF000 ∧
    WritesReg (.addByte x nn) s x (BitVec.ofNat 8 (((s.reg x).toNat + nn.toNat) % 256))

/-- 8XY1, 8XY2 and 8XY3 put the bitwise OR, AND and XOR into V[x], bit by bit, and write no flag (R123 to R125). That
VF is not written is the spec's decision D9. -/
def Obligations.BitwiseOperations : Prop :=
  ∀ (x y : Nibble) (s : State),
    (InRow (.orReg x y) 0x8001 0xF00F ∧
      ∃ b, (∀ k, k < 8 → b.getLsbD k = ((s.reg x).getLsbD k || (s.reg y).getLsbD k)) ∧
        WritesReg (.orReg x y) s x b) ∧
    (InRow (.andReg x y) 0x8002 0xF00F ∧
      ∃ b, (∀ k, k < 8 → b.getLsbD k = ((s.reg x).getLsbD k && (s.reg y).getLsbD k)) ∧
        WritesReg (.andReg x y) s x b) ∧
    (InRow (.xorReg x y) 0x8003 0xF00F ∧
      ∃ b, (∀ k, k < 8 → b.getLsbD k = ((s.reg x).getLsbD k ^^ (s.reg y).getLsbD k)) ∧
        WritesReg (.xorReg x y) s x b)

/-- 8XY4: V[x] <- (a + b) mod 256, then VF <- 1 iff a + b > 255; for x = 15 the flag remains (R127). -/
def Obligations.AddSetsCarry : Prop :=
  ∀ (x y : Nibble) (s : State),
    InRow (.addReg x y) 0x8004 0xF00F ∧
    WritesRegAndFlag (.addReg x y) s x
      (BitVec.ofNat 8 (((s.reg x).toNat + (s.reg y).toNat) % 256))
      (if (s.reg x).toNat + (s.reg y).toNat > 255 then 1 else 0)

/-- 8XY5 and 8XY7: the difference mod 256, then VF <- 1 iff the minuend is strictly greater (R128, R130). -/
def Obligations.SubtractSetsGreaterFlag : Prop :=
  ∀ (x y : Nibble) (s : State),
    (InRow (.sub x y) 0x8005 0xF00F ∧
      WritesRegAndFlag (.sub x y) s x
        (BitVec.ofInt 8 (((s.reg x).toNat - (s.reg y).toNat : Int) % 256))
        (if (s.reg x).toNat > (s.reg y).toNat then 1 else 0)) ∧
    (InRow (.subn x y) 0x8007 0xF00F ∧
      WritesRegAndFlag (.subn x y) s x
        (BitVec.ofInt 8 (((s.reg y).toNat - (s.reg x).toNat : Int) % 256))
        (if (s.reg y).toNat > (s.reg x).toNat then 1 else 0))

/-- 8XY6: V[x] <- v >> 1 and VF <- v & 1 for x other than 15; for x = 15 what VF_SHIFT_ALIAS says. Y is ignored
(R129). VF_SHIFT_ALIAS is the spec's open parameter (decision D8, log entry 5). -/
def Obligations.ShiftRight : Prop :=
  ∀ (x y : Nibble) (s : State),
    InRow (.shr x y) 0x8006 0xF00F ∧
    (x ≠ flagReg → WritesRegAndFlag (.shr x y) s x
      (BitVec.ofNat 8 ((s.reg x).toNat / 2)) (BitVec.ofNat 8 ((s.reg x).toNat % 2))) ∧
    (x = flagReg → WritesReg (.shr x y) s flagReg
      (match Config.vfShiftAlias with
       | .docOrder => BitVec.ofNat 8 ((s.reg x).toNat % 2 / 2)
       | .flagWins => BitVec.ofNat 8 ((s.reg x).toNat % 2)
       | .resultWins => BitVec.ofNat 8 ((s.reg x).toNat / 2)))

/-- 8XYE: V[x] <- (v << 1) mod 256 and VF <- v >> 7 for x other than 15; for x = 15 what VF_SHIFT_ALIAS says. Y is
ignored (R131). VF_SHIFT_ALIAS is the spec's open parameter (decision D8, log entry 5). -/
def Obligations.ShiftLeft : Prop :=
  ∀ (x y : Nibble) (s : State),
    InRow (.shl x y) 0x800E 0xF00F ∧
    (x ≠ flagReg → WritesRegAndFlag (.shl x y) s x
      (BitVec.ofNat 8 ((s.reg x).toNat * 2 % 256)) (BitVec.ofNat 8 ((s.reg x).toNat / 128))) ∧
    (x = flagReg → WritesReg (.shl x y) s flagReg
      (match Config.vfShiftAlias with
       | .docOrder => BitVec.ofNat 8 ((s.reg x).toNat / 128 * 2)
       | .flagWins => BitVec.ofNat 8 ((s.reg x).toNat / 128)
       | .resultWins => BitVec.ofNat 8 ((s.reg x).toNat * 2 % 256)))

/-- CXNN puts the next byte of the random oracle, masked, into V[x] and consumes one draw whatever NN is (R132). The
draw counter is the model's (log entry 3); the byte is a free value. The oracle is the spec's decision D20. -/
def Obligations.RandomByteIsMasked : Prop :=
  ∀ (x : Nibble) (nn : Byte) (s : State),
    ∃ t, exec (.rnd x nn) s = .next t ∧
      (∀ r, t.reg r = if r = x then Config.randomByte s.rndDraws &&& nn else s.reg r) ∧
      t = { s with v := t.v, rndDraws := s.rndDraws + 1 }

/-! ## Index register and memory transfer (43_index_memory.md) -/

/-- ANNN, FX1E and FX29 write I, modulo 4096, and nothing else (R140 to R142). That FX1E leaves VF alone and that FX29
takes the whole byte are the spec's decisions D11 and D12. -/
def Obligations.IndexRegisterWrites : Prop :=
  ∀ (x : Nibble) (nnn : Addr) (s : State),
    (InRow (.ldI nnn) 0xA000 0xF000 ∧
      ∃ t, exec (.ldI nnn) s = .next t ∧ t.i = nnn ∧ t = { s with i := t.i }) ∧
    (InRow (.addI x) 0xF01E 0xF0FF ∧
      ∃ t, exec (.addI x) s = .next t ∧ t.i.toNat = (s.i.toNat + (s.reg x).toNat) % 4096 ∧
        t = { s with i := t.i }) ∧
    (InRow (.ldF x) 0xF029 0xF0FF ∧
      ∃ t, exec (.ldF x) s = .next t ∧ t.i.toNat = (0x050 + (s.reg x).toNat * 5) % 4096 ∧ t = { s with i := t.i })

/-- FX33 stores the three decimal digits at I, I + 1, I + 2 and no other byte, or takes MemoryOutOfRange and stores
none (R143). MemoryOutOfRange is the spec's decision D3. What a fault leaves and what its record holds are the spec's
decisions D1 and D27. -/
def Obligations.BcdStoresDigits : Prop :=
  ∀ (x : Nibble) (s : State),
    InRow (.ldB x) 0xF033 0xF0FF ∧
    (s.i.toNat + 2 ≤ 4095 →
      ∃ t, exec (.ldB x) s = .next t ∧
        (t.mem.peek s.i.toNat).toNat = (s.reg x).toNat / 100 ∧
        (t.mem.peek (s.i.toNat + 1)).toNat = (s.reg x).toNat / 10 % 10 ∧
        (t.mem.peek (s.i.toNat + 2)).toNat = (s.reg x).toNat % 10 ∧
        (∀ a, (a < s.i.toNat ∨ s.i.toNat + 2 < a) → t.mem.peek a = s.mem.peek a) ∧
        t = { s with mem := t.mem }) ∧
    (s.i.toNat + 2 > 4095 → TakesFault (.ldB x) s .memoryOutOfRange 4096)

/-- FX55 stores V0..VX at I..I + x and no other byte, or takes MemoryOutOfRange and stores none; I stays (R144).
MemoryOutOfRange is the spec's decision D3, and that I stays D10. What a fault leaves and what its record holds are
the spec's decisions D1 and D27. -/
def Obligations.StoreRegisterRange : Prop :=
  ∀ (x : Nibble) (s : State),
    InRow (.storeRegs x) 0xF055 0xF0FF ∧
    (s.i.toNat + x.toNat ≤ 4095 →
      ∃ t, exec (.storeRegs x) s = .next t ∧
        (∀ k : Nibble, k.toNat ≤ x.toNat → t.mem.peek (s.i.toNat + k.toNat) = s.reg k) ∧
        (∀ a, (a < s.i.toNat ∨ s.i.toNat + x.toNat < a) → t.mem.peek a = s.mem.peek a) ∧
        t = { s with mem := t.mem }) ∧
    (s.i.toNat + x.toNat > 4095 → TakesFault (.storeRegs x) s .memoryOutOfRange 4096)

/-- FX65 loads V0..VX from I..I + x and no other register, or takes MemoryOutOfRange and loads none; I stays (R145).
MemoryOutOfRange is the spec's decision D3, and that I stays D10. What a fault leaves and what its record holds are
the spec's decisions D1 and D27. -/
def Obligations.LoadRegisterRange : Prop :=
  ∀ (x : Nibble) (s : State),
    InRow (.loadRegs x) 0xF065 0xF0FF ∧
    (s.i.toNat + x.toNat ≤ 4095 →
      ∃ t, exec (.loadRegs x) s = .next t ∧
        (∀ k, t.reg k = if k.toNat ≤ x.toNat then s.mem.peek (s.i.toNat + k.toNat) else s.reg k) ∧
        t = { s with v := t.v }) ∧
    (s.i.toNat + x.toNat > 4095 → TakesFault (.loadRegs x) s .memoryOutOfRange 4096)

/-! ## Display (44_display.md) -/

/-- 00E0 darkens every pixel, sets REDRAW, and changes nothing else (R150). -/
def Obligations.ClearScreen : Prop :=
  ∀ s : State,
    InRow .cls 0x00E0 0xFFFF ∧
    ∃ t, exec .cls s = .next t ∧ (∀ x y, x < 64 → y < 32 → t.fb.pixel x y = false) ∧ t.redraw = true ∧
      t = { s with fb := t.fb, redraw := t.redraw }

/-- DXYN XORs the sprite's bits into the clipped area and touches no other pixel, sets VF to 1 exactly when a lit
pixel was turned off and to 0 otherwise, and sets REDRAW; or takes MemoryOutOfRange with nothing drawn (R151, R152).
What is read before VF is reset and which rows are read is the spec's decision D14, MemoryOutOfRange D3. What a fault
leaves and what its record holds are the spec's decisions D1 and D27. -/
def Obligations.DrawSprite : Prop :=
  ∀ (x y n : Nibble) (s : State) (x0 y0 rows : Nat),
    x0 = (s.reg x).toNat % 64 → y0 = (s.reg y).toNat % 32 → rows = min n.toNat (32 - y0) →
    InRow (.drw x y n) 0xD000 0xF000 ∧
    (spriteInMemory s.i.toNat rows →
      ∃ t, exec (.drw x y n) s = .next t ∧
        (∀ px py, t.fb.pixel px py =
          (s.fb.pixel px py ^^ (decide (inSprite x0 y0 rows px py) && spriteBit s.mem s.i.toNat x0 y0 px py))) ∧
        ((∃ px py, inSprite x0 y0 rows px py ∧ spriteBit s.mem s.i.toNat x0 y0 px py = true ∧
          s.fb.pixel px py = true) → t.reg flagReg = 1) ∧
        ((¬ ∃ px py, inSprite x0 y0 rows px py ∧ spriteBit s.mem s.i.toNat x0 y0 px py = true ∧
          s.fb.pixel px py = true) → t.reg flagReg = 0) ∧
        (∀ r, r ≠ flagReg → t.reg r = s.reg r) ∧ t.redraw = true ∧
        t = { s with v := t.v, fb := t.fb, redraw := t.redraw }) ∧
    (¬ spriteInMemory s.i.toNat rows → TakesFault (.drw x y n) s .memoryOutOfRange 4096)

/-- A second draw of the same sprite at the same place, with the pixels and the sprite's bytes as the first left them,
restores every pixel, and sets VF to 1 exactly when a set sprite bit inside the clipped area falls on a pixel that was
dark before the first draw (R153). R153 is the spec's own derivation from R151 (decision D14) and R152. -/
def Obligations.DrawTwiceRestores : Prop :=
  ∀ (x y x' y' n : Nibble) (s t t' : State) (x0 y0 rows : Nat),
    x0 = (s.reg x).toNat % 64 → y0 = (s.reg y).toNat % 32 → rows = min n.toNat (32 - y0) →
    spriteInMemory s.i.toNat rows → exec (.drw x y n) s = .next t →
    t'.fb = t.fb → t'.mem = t.mem → t'.i = t.i →
    (t'.reg x').toNat % 64 = x0 → (t'.reg y').toNat % 32 = y0 →
    ∃ u, exec (.drw x' y' n) t' = .next u ∧ u.fb = s.fb ∧
      (u.reg flagReg = 1 ↔ ∃ px py, inSprite x0 y0 rows px py ∧
        spriteBit s.mem s.i.toNat x0 y0 px py = true ∧ s.fb.pixel px py = false)

/-! ## Timers and key wait (45_timer_keypad.md) -/

/-- FX15 and FX18 set DT and ST to V[x], and change nothing else (R162, R163). -/
def Obligations.TimerWrites : Prop :=
  ∀ (x : Nibble) (s : State),
    (InRow (.ldDtVx x) 0xF015 0xF0FF ∧
      ∃ t, exec (.ldDtVx x) s = .next t ∧ t.dt = s.reg x ∧ t = { s with dt := t.dt }) ∧
    (InRow (.ldStVx x) 0xF018 0xF0FF ∧
      ∃ t, exec (.ldStVx x) s = .next t ∧ t.st = s.reg x ∧ t = { s with st := t.st })

/-- FX0A enters the wait with destination x and changes nothing else: V[x] is not written (R161). -/
def Obligations.KeyWaitEnters : Prop :=
  ∀ (x : Nibble) (s : State),
    InRow (.ldVxK x) 0xF00A 0xF0FF ∧
    ∃ t, exec (.ldVxK x) s = .next t ∧ t.exec = .waitingForKey x ∧ t = { s with exec := t.exec }

/-- Whatever events its tick has, FX0A leaves the machine waiting with every register as it was when the instruction
began: a key-down of that tick does not end the wait (R246). It is the spec's decision D17, derived in R246. -/
def Obligations.KeyWaitOutlastsItsOwnTick : Prop :=
  ∀ (x : Nibble) (s t : State), s.Executes (.ldVxK x) → step s = .next t →
    t.exec = .waitingForKey x ∧ ∀ r, t.reg r = s.beforeFetch.reg r

/-! ## The tick (60_exceptions.md) -/

/-- When the two bytes at PC decode to `i` and the tick reaches phase 5, the step is `exec` of `i` from the state of
phases 1 to 3 with PC past the word, followed by redraw signalling. A tick that begins Running has only counted its
timers and taken its input by then. -/
def Obligations.StepRunsDecodedInstruction : Prop :=
  ∀ (s : State) (i : Instr),
    s.Executes i →
    step s =
      (match exec i { s.beforeFetch with pc := s.pc + 2 } with
       | .next t => .next t.signalRedraw
       | .fault r => .fault r
       | .refused r => .refused r) ∧
    (s.exec = .running →
      s.beforeFetch =
        { s with
          dt := s.beforeFetch.dt, st := s.beforeFetch.st, key := s.beforeFetch.key, inputs := s.inputs.tail } ∧
      s.beforeFetch.dt.toNat = s.dt.toNat - 1 ∧ s.beforeFetch.st.toNat = s.st.toNat - 1)

/-- A word that decodes to nothing raises UnimplementedOpcode in the tick that fetched it: the record names PC and the
word, and nothing but the timers, KEY and the consumed input has changed (R76, R201 to R203). What a fault leaves and
what its record holds are the spec's decisions D1 and D27. -/
def Obligations.UnrecognisedWordFaults : Prop :=
  ∀ s : State, s.exec = .running → .quit ∉ s.events → s.pc.toNat + 2 ≤ 4095 → decodeWord s.wordAtPc = none →
    ∃ t, step s = .next t ∧ t.exec = .stopped ∧
      t.fault = some { kind := .unimplementedOpcode, pc := some s.pc, word := some s.wordAtPc,
                       info := .value s.wordAtPc.toNat } ∧
      t = { s with dt := t.dt, st := t.st, key := t.key, inputs := s.inputs.tail, exec := t.exec, fault := t.fault }

/-- Fetch at 4095 raises MemoryOutOfRange and fetch at 4094 PcOutOfRange, both with info 4096 and no word; nothing but
the timers, KEY and the consumed input has changed (R54, R200, R203, R204, R214). The two faults are the spec's
decisions D3 and D4. What a fault leaves and what its record holds are the spec's decisions D1 and D27. -/
def Obligations.FetchPastTheEndFaults : Prop :=
  ∀ s : State, s.exec = .running → .quit ∉ s.events → 4094 ≤ s.pc.toNat →
    ∃ t r, step s = .next t ∧ t.exec = .stopped ∧ t.fault = some r ∧ r.pc = some s.pc ∧ r.info = .value 4096 ∧
      r.word = none ∧
      (s.pc.toNat = 4095 → r.kind = .memoryOutOfRange) ∧
      (s.pc.toNat = 4094 → r.kind = .pcOutOfRange) ∧
      t = { s with dt := t.dt, st := t.st, key := t.key, inputs := s.inputs.tail, exec := t.exec, fault := t.fault }

/-- Every tick that runs counts each timer down by one, never below 0, before its instruction; only FX15 and FX18 of
that tick write it after (R210). -/
def Obligations.TimersCountDown : Prop :=
  ∀ s t : State, step s = .next t →
    (s.beforeFetch.dt.toNat = s.dt.toNat - 1 ∧ s.beforeFetch.st.toNat = s.st.toNat - 1) ∧
    (t.dt.toNat = s.dt.toNat - 1 ∨ ∃ x, s.Executes (.ldDtVx x) ∧ t.dt = s.beforeFetch.reg x) ∧
    (t.st.toNat = s.st.toNat - 1 ∨ ∃ x, s.Executes (.ldStVx x) ∧ t.st = s.beforeFetch.reg x)

/-- Input synchronisation: in every tick that runs, each key ends as the last event about it says, or as it was; a
Quit among the events stops the machine with nothing but the timers, KEY and the consumed input changed, so FAULT
stays as it was (R211). The event list and Quit's effect on the tick are the spec's decisions D16 and D24; the list of
inputs is the model's (log entry 1). -/
def Obligations.InputSynchronisation : Prop :=
  ∀ s t : State, step s = .next t →
    (∀ k, t.keyPressed k = keyAfter k (s.keyPressed k) s.events) ∧
    (.quit ∈ s.events → t.exec = .stopped ∧
      t = { s with dt := t.dt, st := t.st, key := t.key, inputs := s.inputs.tail, exec := t.exec })

/-- A tick that has events of key-down while waiting, and no Quit, writes the number of one of those keys into the
remembered register, returns to Running and goes on as a Running tick: the instruction after FX0A executes in it
(R212). With no key-down it is still waiting. Which key-downs count is the spec's decision D17; the choice among
several is a free value (log entry 4). -/
def Obligations.WaitCompletes : Prop :=
  ∀ (s : State) (d : Nibble), s.exec = .waitingForKey d → .quit ∉ s.events →
    ((∃ k, .keyDown k ∈ s.events) →
      ∃ k u, .keyDown k ∈ s.events ∧
        (∀ r, u.reg r = if r = d then BitVec.ofNat 8 k.toNat else s.reg r) ∧
        u = { s with v := u.v, exec := .running, waitDraws := u.waitDraws } ∧ step s = step u) ∧
    ((¬ ∃ k, .keyDown k ∈ s.events) → ∃ t, step s = .next t ∧ t.exec = .waitingForKey d)

/-- A tick that finds the machine waiting with no key-down, or Paused, and has no Quit, executes no instruction: it
changes only the timers, KEY, the consumed input and the redraw signalling (R213, R217). Paused is the spec's decision
D25. -/
def Obligations.BlockedTickRunsNothing : Prop :=
  ∀ s : State,
    ((∃ d, s.exec = .waitingForKey d) ∧ (¬ ∃ k, .keyDown k ∈ s.events) ∨ s.exec = .paused) → .quit ∉ s.events →
    ∃ t, step s = .next t ∧
      t = { s with dt := t.dt, st := t.st, key := t.key, inputs := s.inputs.tail,
                   redraw := t.redraw, presents := t.presents }

/-- A tick that did not stop the machine leaves REDRAW clear, and has handed the framebuffer to the host once if
REDRAW was set or 00E0 or DXYN ran, and not at all otherwise; a tick that stopped it has handed over nothing (R215,
R201). The list of snapshots is the model's (log entry 2). The rule is the spec's decision D18. -/
def Obligations.RedrawSignalling : Prop :=
  ∀ s t : State, step s = .next t →
    (t.exec ≠ .stopped →
      t.redraw = false ∧
      ((s.redraw = true ∨ s.Executes .cls ∨ ∃ x y n, s.Executes (.drw x y n)) → t.presents = t.fb :: s.presents) ∧
      (¬ (s.redraw = true ∨ s.Executes .cls ∨ ∃ x y n, s.Executes (.drw x y n)) → t.presents = s.presents)) ∧
    (t.exec = .stopped → t.presents = s.presents ∧ t.redraw = s.redraw)

/-- The complete transition relation of EXEC (R218): a tick that changes EXEC does so by FX0A, by ending a wait with
an observed key-down, by Quit with FAULT as it was, or by a fault in phase 5. Faults and Quit follow the spec's
decisions D1 and D24. -/
def Obligations.ExecTransitions : Prop :=
  ∀ s t : State, step s = .next t →
    t.exec = s.exec ∨
    (∃ x, t.exec = .waitingForKey x ∧ s.Executes (.ldVxK x)) ∨
    ((∃ d, s.exec = .waitingForKey d) ∧ (∃ k, .keyDown k ∈ s.events) ∧ t.exec = .running) ∨
    (.quit ∈ s.events ∧ t.exec = .stopped ∧ t.fault = s.fault) ∨
    (.quit ∉ s.events ∧ s.beforeFetch.exec = .running ∧ t.exec = .stopped ∧ t.fault.isSome = true)

/-- In Stopped no tick runs, however many are asked for (R216). That the model says so by a stop of its own is its
choice (log entry 8). -/
def Obligations.StoppedIsTerminal : Prop :=
  ∀ s : State, s.exec = .stopped →
    (∀ k, Host.Core.run core (k + 1) s = .fault Fault.runEnded) ∧
    (∀ u k, Host.Core.run core k u = .next s → ∀ t j, Host.Core.run core (k + 1 + j) u ≠ .next t)

/-! ## Faults (60_exceptions.md R200 to R204) -/

/-- Faults are precise: a tick that sets a fault record leaves everything but EXEC and FAULT as it was at the start of
phase 5, with PC the address of the faulting instruction, named by the record (R202). What a fault leaves and what its
record holds are the spec's decisions D1 and D27. -/
def Obligations.FaultsArePrecise : Prop :=
  ∀ s t : State, step s = .next t → t.fault ≠ s.fault →
    t.exec = .stopped ∧ t.pc = s.pc ∧ t = { s.beforeFetch with exec := .stopped, fault := t.fault } ∧
    ∃ r, t.fault = some r ∧ r.pc = some s.pc

/-- Only the events of R200 set a fault record, each with its kind, word and info: fetch at 4095 or 4094 (no word), a
word that decodes to nothing, or the failed check of the instruction that the tick executes (the word fetched).
MemoryOutOfRange, PcOutOfRange and KeyOutOfRange are the spec's decisions D3, D4 and D13. What a fault leaves and what
its record holds are the spec's decisions D1 and D27. -/
def Obligations.OnlyListedEventsFault : Prop :=
  ∀ (s t : State) (r : FaultRecord), step s = .next t → t.fault ≠ s.fault → t.fault = some r →
    ∃ info, r.info = .value info ∧
      ((s.pc.toNat = 4095 ∧ r.kind = .memoryOutOfRange ∧ r.word = none ∧ info = 4096) ∨
       (s.pc.toNat = 4094 ∧ r.kind = .pcOutOfRange ∧ r.word = none ∧ info = 4096) ∨
       (s.pc.toNat + 2 ≤ 4095 ∧ decodeWord s.wordAtPc = none ∧ r.kind = .unimplementedOpcode ∧
          r.word = some s.wordAtPc ∧ info = s.wordAtPc.toNat) ∨
       (∃ i, s.Executes i ∧ r.word = some s.wordAtPc ∧ ExecFaultCause s r.kind info i))

/-- A run ends only by Quit, with FAULT as it was and exit zero, or by a fault, with a nonzero exit; before that it
has no exit status (R228, R230). The end of a run is the spec's decision D28, FAULT D1. -/
def Obligations.RunEndsByQuitOrFault : Prop :=
  ∀ s t : State, s.fault = none → step s = .next t →
    (t.exitStatus = some .zero ↔ .quit ∈ s.events) ∧
    (t.exitStatus = some .nonzero ↔ t.fault ≠ none) ∧
    (t.exitStatus = none ↔ t.exec ≠ .stopped)

/-! ## Invariants and whole-machine rules -/

/-- Every tick keeps the invariant: canonical memory, the fault record in order, no redraw pending between ticks. The
canonical form is the model's (log entry 6); the fault record follows the spec's decisions D1 and D27. -/
def Obligations.StepKeepsInvariant : Prop :=
  ∀ s t : State, s.Inv → step s = .next t → t.Inv

/-- The invariant holds after reset. The canonical form is the model's (log entry 6). -/
def Obligations.ResetMeetsInvariant : Prop := State.reset.Inv

/-- The invariant holds after reset with any font and any ROM, loaded or refused. The canonical form is the model's
(log entry 6). That a refused ROM leaves EXEC = Stopped, which the invariant asks of it, is the model's reading (log
entry 10). -/
def Obligations.BootMeetsInvariant : Prop :=
  ∀ font rom, (State.bootWith font rom).Inv

/-- Slot 0 of the stack is never written; a slot changes only by the call that makes SP point to it; SP changes only
by a call, up by one, or a return, down by one (R27, R28). -/
def Obligations.StackDiscipline : Prop :=
  ∀ s t : State, step s = .next t →
    t.stackSlot 0 = s.stackSlot 0 ∧
    (∀ j, t.stackSlot j ≠ s.stackSlot j →
      (∃ nnn, s.Executes (.call nnn)) ∧ j = t.sp ∧ t.stackSlot j = s.pc + 2) ∧
    (t.sp ≠ s.sp →
      ((∃ nnn, s.Executes (.call nnn)) ∧ t.sp.toNat = s.sp.toNat + 1) ∨
      (s.Executes .ret ∧ t.sp.toNat + 1 = s.sp.toNat))

/-- An instruction leaves every general register alone but those the table of R23 lists for it. R23 is the spec's own
derivation from the instructions' rules. -/
def Obligations.RegistersWrittenAsListed : Prop :=
  ∀ (i : Instr) (s t : State), exec i s = .next t →
    ∀ r, r ∉ i.destRegs → ¬ (i.writesFlag = true ∧ r = flagReg) → t.reg r = s.reg r

/-- An instruction leaves every byte of memory alone but those the table of R58 lists for it, from address I on. -/
def Obligations.MemoryWrittenAsListed : Prop :=
  ∀ (i : Instr) (s t : State), exec i s = .next t →
    ∀ a, ¬ (s.i.toNat ≤ a ∧ a < s.i.toNat + i.storeLength) → t.mem.peek a = s.mem.peek a

/-- Who writes the rest of the state (R31, R32, R36): I, the timers, the framebuffer and REDRAW only the instructions
listed; KEY, the inputs and the presented snapshots no instruction; FAULT only together with EXEC = Stopped; EXEC only
by a fault, with FAULT set, or by FX0A. What a fault writes is the spec's decision D1; the inputs, snapshots and
counter are the model's (log entries 1, 2, 4). -/
def Obligations.OtherStateWrittenAsListed : Prop :=
  ∀ (i : Instr) (s t : State), exec i s = .next t →
    (t.i ≠ s.i → (∃ nnn, i = .ldI nnn) ∨ ∃ x, i = .addI x ∨ i = .ldF x) ∧
    (t.dt ≠ s.dt → ∃ x, i = .ldDtVx x) ∧
    (t.st ≠ s.st → ∃ x, i = .ldStVx x) ∧
    (t.fb ≠ s.fb ∨ t.redraw ≠ s.redraw → i = .cls ∨ ∃ x y n, i = .drw x y n) ∧
    t.key = s.key ∧ t.inputs = s.inputs ∧ t.presents = s.presents ∧ t.waitDraws = s.waitDraws ∧
    (t.fault ≠ s.fault → t.exec = .stopped) ∧
    (t.exec ≠ s.exec →
      (t.exec = .stopped ∧ t.fault.isSome = true) ∨ ∃ x, i = .ldVxK x ∧ t.exec = .waitingForKey x)

/-- Self-modifying code: two bytes that FX55 stores where the next tick fetches are the instruction that tick
executes, with no fence or delay (R63, R244). It is the spec's decision D29. -/
def Obligations.StoredBytesAreFetchedNext : Prop :=
  ∀ (x : Nibble) (i : Instr) (s t : State),
    s.Executes (.storeRegs x) → 1 ≤ x.toNat → s.i.toNat = s.pc.toNat + 2 → s.pc.toNat + 4 ≤ 4095 →
    decodeWord (packWord (s.beforeFetch.reg 0) (s.beforeFetch.reg 1)) = some i →
    s.i.toNat + x.toNat ≤ 4095 → step s = .next t → .quit ∉ t.events →
    t.Executes i

/-- FX15 with value n in one tick and FX07 in the next reads n - 1, or 0 for n = 0 (R245). R245 is the spec's own
derivation from R209 and R210. -/
def Obligations.DelayTimerReadBackOneLess : Prop :=
  ∀ (x y : Nibble) (s t u : State),
    s.Executes (.ldDtVx x) → step s = .next t → t.Executes (.ldVxDt y) → step t = .next u →
    (u.reg y).toNat = (s.beforeFetch.reg x).toNat - 1

/-! ## Memory primitives and reset (20_memory.md, 70_reset_and_hazards.md) -/

/-- `read8` returns the byte, `write8` sets it and no other, and both fault at 4096 and above, naming the address
(R52, R53). The error is the spec's decision D3. -/
def Obligations.ByteAccess : Prop :=
  ∀ (m : Memory) (a : Nat) (b : Byte),
    (a < 4096 → ∃ m', m.write8 a b = .ok m' ∧ m'.read8 a = .ok b ∧ ∀ x, x ≠ a → m'.read8 x = m.read8 x) ∧
    (a ≥ 4096 → m.read8 a = .error a ∧ m.write8 a b = .error a)

/-- `read16` packs two bytes big-endian where both exist; at 4095 it faults with 4096 (R54). The error is the spec's
decision D3. -/
def Obligations.WordReadIsBigEndian : Prop :=
  ∀ (m : Memory) (a : Nat),
    (a + 1 < 4096 → ∃ w : Word, m.read16 a = .ok w ∧
      w.toNat = (m.peek a).toNat * 256 + (m.peek (a + 1)).toNat) ∧
    m.read16 4095 = .error 4096

/-- `writeBytes` fails exactly when offset + length >= 4096; otherwise it puts byte k at offset + k, changes no other
byte and keeps the memory's canonical form (R55). The canonical form is the model's (log entry 6). -/
def Obligations.BulkWrite : Prop :=
  ∀ (m : Memory) (bytes : List Byte) (offset : Nat),
    (offset + bytes.length ≥ 4096 → m.writeBytes bytes offset = none) ∧
    (offset + bytes.length < 4096 →
      ∃ m', m.writeBytes bytes offset = some m' ∧ (m.wf → m'.wf) ∧
        (∀ k (h : k < bytes.length), m'.peek (offset + k) = bytes[k]) ∧
        (∀ a, (a < offset ∨ offset + bytes.length ≤ a) → m'.peek a = m.peek a))

/-- The value of every piece of state after reset with any font and any ROM that loads (R40): memory zero but for the
font and the ROM, and every register, flag and driver state as listed. The values of V, I, STACK, DT, ST, KEY, FB and
REDRAW are the spec's decision D15. -/
def Obligations.ResetValues : Prop :=
  ∀ (font : Vector Byte 80) (rom : List Byte), rom.length < 3584 →
    ∃ s, State.bootWith font rom = s ∧
      (∀ k (h : k < 80), s.mem.peek (0x050 + k) = font[k]) ∧
      (∀ k (h : k < rom.length), s.mem.peek (0x200 + k) = rom[k]) ∧
      (∀ a, a < 0x050 ∨ (0x0A0 ≤ a ∧ a < 0x200) ∨ 0x200 + rom.length ≤ a → s.mem.peek a = 0) ∧
      s.pc = 0x200 ∧ s.sp = 0 ∧ (∀ r, s.reg r = 0) ∧ s.i = 0 ∧ (∀ j, s.stackSlot j = 0) ∧ s.dt = 0 ∧ s.st = 0 ∧
      (∀ k, s.keyPressed k = false) ∧ (∀ x y, x < 64 → y < 32 → s.fb.pixel x y = false) ∧ s.redraw = false ∧
      s.exec = .running ∧ s.fault = none

/-- `State.reset` is reset of this machine with an empty ROM: writing its own font over the reset memory lists
nothing, and the whole state is the same (R240, R241). -/
def Obligations.ResetIsBootWithEmptyRom : Prop :=
  State.boot [] = State.reset

/-- A ROM of 3584 bytes or more does not load: CapacityExceeded is recorded with the offset and the length, no byte of
the ROM is written, and no tick runs (R241). EXEC = Stopped is the model's reading (log entry 10). What a fault leaves
and what its record holds are the spec's decisions D1 and D27. -/
def Obligations.OversizedRomIsRejected : Prop :=
  ∀ (font : Vector Byte 80) (rom : List Byte), rom.length ≥ 3584 →
    ∃ s, State.bootWith font rom = s ∧
      s.fault = some { kind := .capacityExceeded, pc := none, word := none, info := .load 0x200 rom.length } ∧
      s.mem = (State.bootWith font []).mem ∧ s.exitStatus = some .nonzero ∧ ∀ t, step s ≠ .next t
end

