-- ==== Sys2Proof/Laws/Decode.lean ====
section
/-! SUPPORT. The fields of the words that the encoder builds, and the shape of a word from its fields. -/

namespace Sys2Proof

theorem Instr.wellFormed_all (i : Instr) : i.wellFormed = true := by
  have h4 (x : Nibble) : x.toNat < 16 := x.isLt
  have h8 (x : Byte) : x.toNat < 256 := x.isLt
  have h12 (x : Addr) : x.toNat < 4096 := x.isLt
  cases i <;> simp [Instr.wellFormed, h4, h8, h12]

/-! ## Bits of built words (R71, R73) -/

theorem getLsbD_wordNNN (c : Nibble) (nnn : Addr) (k : Nat) :
    (wordNNN c nnn).getLsbD k = if k < 12 then nnn.getLsbD k else c.getLsbD (k - 12) :=
  BitVec.getLsbD_append

theorem getLsbD_wordXNN (c x : Nibble) (nn : Byte) (k : Nat) :
    (wordXNN c x nn).getLsbD k =
      if k < 12 then (if k < 8 then nn.getLsbD k else x.getLsbD (k - 8)) else c.getLsbD (k - 12) :=
  (getLsbD_wordNNN c (x ++ nn) k).trans
    (congrArg (fun b => if k < 12 then b else c.getLsbD (k - 12)) BitVec.getLsbD_append)

theorem wordXYN_eq_wordXNN (c x y n : Nibble) : wordXYN c x y n = wordXNN c x (y ++ n) := rfl

theorem getLsbD_wordXYN (c x y n : Nibble) (k : Nat) :
    (wordXYN c x y n).getLsbD k =
      if k < 12 then
        (if k < 8 then (if k < 4 then n.getLsbD k else y.getLsbD (k - 4)) else x.getLsbD (k - 8))
      else c.getLsbD (k - 12) :=
  (getLsbD_wordXNN c x (y ++ n) k).trans
    (congrArg (fun b => if k < 12 then (if k < 8 then b else x.getLsbD (k - 8)) else c.getLsbD (k - 12))
      BitVec.getLsbD_append)

/-! ## Fields of built words (R71, R73) -/

@[simp] theorem fieldC_wordNNN (c : Nibble) (nnn : Addr) : fieldC (wordNNN c nnn) = c := by
  ext i hi
  simp [fieldC, getLsbD_wordNNN, BitVec.getLsbD_eq_getElem hi]

@[simp] theorem fieldNNN_wordNNN (c : Nibble) (nnn : Addr) : fieldNNN (wordNNN c nnn) = nnn := by
  ext i hi
  simp [fieldNNN, getLsbD_wordNNN, hi]

@[simp] theorem fieldC_wordXNN (c x : Nibble) (nn : Byte) : fieldC (wordXNN c x nn) = c :=
  fieldC_wordNNN c _

@[simp] theorem fieldX_wordXNN (c x : Nibble) (nn : Byte) : fieldX (wordXNN c x nn) = x := by
  ext i hi
  have : 8 + i < 12 := by omega
  simp [fieldX, getLsbD_wordXNN, this, BitVec.getLsbD_eq_getElem hi]

@[simp] theorem fieldNN_wordXNN (c x : Nibble) (nn : Byte) : fieldNN (wordXNN c x nn) = nn := by
  ext i hi
  have : i < 12 := by omega
  simp [fieldNN, getLsbD_wordXNN, this, hi]

@[simp] theorem fieldC_wordXYN (c x y n : Nibble) : fieldC (wordXYN c x y n) = c := fieldC_wordXNN c x _

@[simp] theorem fieldX_wordXYN (c x y n : Nibble) : fieldX (wordXYN c x y n) = x := fieldX_wordXNN c x _

@[simp] theorem fieldY_wordXYN (c x y n : Nibble) : fieldY (wordXYN c x y n) = y := by
  ext i hi
  have h1 : 4 + i < 12 := by omega
  have h2 : 4 + i < 8 := by omega
  simp [fieldY, getLsbD_wordXYN, h1, h2, BitVec.getLsbD_eq_getElem hi]

@[simp] theorem fieldN_wordXYN (c x y n : Nibble) : fieldN (wordXYN c x y n) = n := by
  ext i hi
  have h1 : i < 12 := by omega
  have h2 : i < 8 := by omega
  simp [fieldN, getLsbD_wordXYN, h1, h2, hi]

/-! ## A word from its fields -/

/-- Words with the same bits below 16 are equal. -/
theorem word_ext {u w : Word} (h : ∀ k, k < 16 → u.getLsbD k = w.getLsbD k) : u = w :=
  BitVec.eq_of_getLsbD_eq h

theorem wordXYN_fields (w : Word) : wordXYN (fieldC w) (fieldX w) (fieldY w) (fieldN w) = w := by
  refine word_ext fun k hk => ?_
  rw [getLsbD_wordXYN]
  simp only [fieldC, fieldX, fieldY, fieldN, BitVec.getLsbD_extractLsb']
  rcases Nat.lt_or_ge k 12 with h1 | h1
  · rcases Nat.lt_or_ge k 8 with h2 | h2
    · rcases Nat.lt_or_ge k 4 with h3 | h3
      · simp [h1, h2, h3]
      · simp [h1, h2, Nat.not_lt.2 h3, show k - 4 < 4 by omega, show 4 + (k - 4) = k by omega]
    · simp [h1, Nat.not_lt.2 h2, show k - 8 < 4 by omega, show 8 + (k - 8) = k by omega]
  · simp [Nat.not_lt.2 h1, show k - 12 < 4 by omega, show 12 + (k - 12) = k by omega]

theorem wordXNN_fields (w : Word) : wordXNN (fieldC w) (fieldX w) (fieldNN w) = w := by
  refine word_ext fun k hk => ?_
  rw [getLsbD_wordXNN]
  simp only [fieldC, fieldX, fieldNN, BitVec.getLsbD_extractLsb']
  rcases Nat.lt_or_ge k 12 with h1 | h1
  · rcases Nat.lt_or_ge k 8 with h2 | h2
    · simp [h1, h2]
    · simp [h1, Nat.not_lt.2 h2, show k - 8 < 4 by omega, show 8 + (k - 8) = k by omega]
  · simp [Nat.not_lt.2 h1, show k - 12 < 4 by omega, show 12 + (k - 12) = k by omega]

theorem wordNNN_fields (w : Word) : wordNNN (fieldC w) (fieldNNN w) = w := by
  refine word_ext fun k hk => ?_
  rw [getLsbD_wordNNN]
  simp only [fieldC, fieldNNN, BitVec.getLsbD_extractLsb']
  rcases Nat.lt_or_ge k 12 with h1 | h1
  · simp [h1]
  · simp [Nat.not_lt.2 h1, show k - 12 < 4 by omega, show 12 + (k - 12) = k by omega]

/-- The two bytes of a word, packed, are the word (R56). -/
@[simp] theorem packWord_bytes (w : Word) : packWord (w.extractLsb' 8 8) (w.extractLsb' 0 8) = w := by
  refine word_ext fun k hk => (BitVec.getLsbD_append (x := w.extractLsb' 8 8)).trans ?_
  simp only [BitVec.getLsbD_extractLsb']
  rcases Nat.lt_or_ge k 8 with h1 | h1
  · simp [h1]
  · simp [Nat.not_lt.2 h1, show k - 8 < 8 by omega, show 8 + (k - 8) = k by omega]

end Sys2Proof
end

