-- ==== Sys2Proof/Laws/Memory.lean ====
section
/-! SUPPORT. What the memory operations do: read after write, the canonical form, and one lemma per multi-byte
operation (20_memory.md R52 to R55, R59). -/

namespace Sys2Proof.Machine

/-! ## One byte -/

@[simp] theorem Memory.peek_nil (a : Nat) : Memory.peek [] a = Memory.unlisted a := rfl

theorem Memory.peek_insertCell (c : Host.Cell) (m : Memory) (a : Nat) (h : ∀ d ∈ m, d.1 ≠ c.1) :
    (Memory.insertCell c m).peek a = if c.1 = a then c.2 else m.peek a := by
  induction m with
  | nil => rfl
  | cons d m ih =>
    have hd : d.1 ≠ c.1 := h d (by simp)
    have ih' := ih (fun e he => h e (by simp [he]))
    by_cases hlt : c.1 < d.1
    · simp [Memory.insertCell, hlt, Memory.peek]
    · simp only [Memory.insertCell, hlt, if_false, Memory.peek, ih']
      by_cases hda : d.1 = a
      · have : c.1 ≠ a := fun e => hd (hda.trans e.symm)
        simp [hda, this]
      · simp [hda]

theorem Memory.peek_filter (m : Memory) (a x : Nat) :
    Memory.peek (m.filter (fun c => c.1 ≠ a)) x = if x = a then Memory.unlisted x else m.peek x := by
  induction m with
  | nil => simp [Memory.peek]
  | cons c m ih =>
    by_cases hc : c.1 = a
    · rw [List.filter_cons_of_neg (by simpa using hc), ih]
      by_cases hx : x = a
      · simp [hx]
      · have : c.1 ≠ x := fun e => hx (e.symm.trans hc)
        simp [hx, Memory.peek, this]
    · rw [List.filter_cons_of_pos (by simpa using hc)]
      by_cases hx : c.1 = x
      · have : x ≠ a := fun e => hc (hx.trans e)
        simp [Memory.peek, hx, this]
      · rw [Memory.peek, if_neg hx, ih, Memory.peek, if_neg hx]

/-- Read after write (R59): the byte written at its address, and every other byte as before. -/
@[simp] theorem Memory.peek_poke (m : Memory) (a x : Nat) (b : Byte) :
    (m.poke a b).peek x = if x = a then b else m.peek x := by
  unfold Memory.poke
  by_cases hb : b = Memory.unlisted a
  · simp only [hb, if_true, Memory.peek_filter]
    by_cases hx : x = a <;> simp [hx]
  · rw [if_neg hb, Memory.peek_insertCell _ _ _ (by simp), Memory.peek_filter]
    by_cases hx : x = a
    · simp [hx]
    · simp [hx, Ne.symm hx]

/-! ## The canonical form -/

theorem Memory.wf_nil : Memory.wf [] := by simp [Memory.wf]

theorem Memory.wf_filter {m : Memory} (p : Host.Cell → Bool) (h : m.wf) : Memory.wf (m.filter p) :=
  ⟨h.1.filter p, fun c hc => h.2 c (List.mem_of_mem_filter hc)⟩

theorem Memory.mem_insertCell {c d : Host.Cell} {m : Memory} :
    d ∈ Memory.insertCell c m ↔ d = c ∨ d ∈ m := by
  induction m with
  | nil => simp [Memory.insertCell]
  | cons e m ih =>
    unfold Memory.insertCell
    split
    · simp
    · simp only [List.mem_cons, ih]
      tauto

theorem Memory.wf_insertCell {c : Host.Cell} {m : Memory} (h : m.wf) (hc : c.1 < 4096)
    (hv : c.2 ≠ Memory.unlisted c.1) (hn : ∀ d ∈ m, d.1 ≠ c.1) : Memory.wf (Memory.insertCell c m) := by
  refine ⟨?_, fun d hd => ?_⟩
  · obtain ⟨hp, -⟩ := h
    induction m with
    | nil => simp [Memory.insertCell]
    | cons e m ih =>
      obtain ⟨he, hp'⟩ := List.pairwise_cons.1 hp
      have hne : e.1 ≠ c.1 := hn e (by simp)
      unfold Memory.insertCell
      split
      · next hlt =>
        refine List.pairwise_cons.2 ⟨fun d hd => ?_, hp⟩
        rcases List.mem_cons.1 hd with rfl | hd
        · exact hlt
        · exact hlt.trans (he d hd)
      · next hlt =>
        refine List.pairwise_cons.2 ⟨fun d hd => ?_, ih (fun d hd => hn d (by simp [hd])) hp'⟩
        rcases Memory.mem_insertCell.1 hd with rfl | hd
        · omega
        · exact he d hd
  · rcases Memory.mem_insertCell.1 hd with rfl | hd
    · exact ⟨hc, hv⟩
    · exact h.2 d hd

theorem Memory.wf_poke {m : Memory} (h : m.wf) {a : Nat} (ha : a < 4096) (b : Byte) :
    (m.poke a b).wf := by
  unfold Memory.poke
  split
  · exact Memory.wf_filter _ h
  · next hb => exact Memory.wf_insertCell (Memory.wf_filter _ h) ha hb (by simp)

/-! ## The primitives of R52 to R54 -/

theorem Memory.read8_ok (m : Memory) {a : Nat} (h : a < 4096) : m.read8 a = .ok (m.peek a) := by
  simp [Memory.read8, h]

theorem Memory.read8_error (m : Memory) {a : Nat} (h : 4096 ≤ a) : m.read8 a = .error a := by
  simp [Memory.read8, Nat.not_lt.2 h]

theorem Memory.write8_ok (m : Memory) {a : Nat} (h : a < 4096) (b : Byte) :
    m.write8 a b = .ok (m.poke a b) := by
  simp [Memory.write8, h]

theorem Memory.write8_error (m : Memory) {a : Nat} (h : 4096 ≤ a) (b : Byte) :
    m.write8 a b = .error a := by
  simp [Memory.write8, Nat.not_lt.2 h]

theorem Memory.wf_write8 {m m' : Memory} {a : Nat} {b : Byte} (h : m.wf) (hw : m.write8 a b = .ok m') : m'.wf := by
  unfold Memory.write8 at hw
  split at hw
  · next ha => cases hw; exact Memory.wf_poke h ha b
  · cases hw

theorem Memory.read16_ok (m : Memory) {a : Nat} (h : a + 1 < 4096) :
    m.read16 a = .ok (packWord (m.peek a) (m.peek (a + 1))) := by
  simp [Memory.read16, Memory.read8_ok m (Nat.lt_of_succ_lt h), Memory.read8_ok m h]

/-! ## Several bytes -/

/-- Bytes that all exist are read one by one. -/
theorem Memory.readBytes_ok (m : Memory) (a n : Nat) (h : a + n ≤ 4096) :
    m.readBytes a n = .ok ((List.range n).map (fun k => m.peek (a + k))) := by
  induction n generalizing a with
  | zero => rfl
  | succ n ih =>
    rw [Memory.readBytes, Memory.read8_ok m (by omega)]
    simp only [ih (a + 1) (by omega), List.range_succ_eq_map, List.map_cons, List.map_map]
    simp [Function.comp_def, Nat.add_assoc, Nat.add_comm 1]

/-- A read past the end names the first address that does not exist. -/
theorem Memory.readBytes_error (m : Memory) (a n : Nat) (ha : a ≤ 4096)
    (h : 4096 < a + n) : m.readBytes a n = .error 4096 := by
  induction n generalizing a with
  | zero => omega
  | succ n ih =>
    rw [Memory.readBytes]
    by_cases hlt : a < 4096
    · rw [Memory.read8_ok m hlt]
      simp only [ih (a + 1) (by omega) (by omega)]
    · rw [Memory.read8_error m (by omega)]
      have : a = 4096 := by omega
      simp [this]

/-- Bytes that all exist are stored, and nothing else changes: what `storeBytes` does when it answers a memory. -/
theorem Memory.storeBytes_ok (m : Memory) (a : Nat) (bs : List Byte) (h : a + bs.length ≤ 4096) :
    ∃ m', m.storeBytes a bs = .ok m' ∧ (m.wf → m'.wf) ∧
      ∀ x, m'.peek x = if a ≤ x ∧ x < a + bs.length then bs.getD (x - a) 0 else m.peek x := by
  induction bs generalizing m a with
  | nil => exact ⟨m, rfl, id, fun x => by simp⟩
  | cons b bs ih =>
    simp only [List.length_cons] at h
    obtain ⟨m', hm', hwf, hp⟩ := ih (m.poke a b) (a + 1) (by omega)
    refine ⟨m', ?_, fun hw => hwf (Memory.wf_poke hw (by omega) b), fun x => ?_⟩
    · rw [Memory.storeBytes, Memory.write8_ok m (by omega)]
      exact hm'
    · rw [hp x, Memory.peek_poke, List.length_cons]
      rcases Nat.lt_trichotomy x a with hx | rfl | hx
      · rw [if_neg (by omega), if_neg (by omega), if_neg (by omega)]
      · rw [if_neg (by omega), if_pos rfl, if_pos (by omega)]
        simp
      · have e : x - a = (x - (a + 1)) + 1 := by omega
        by_cases hin : x < a + 1 + bs.length
        · rw [if_pos (by omega), if_pos (by omega), e, List.getD_cons_succ]
        · rw [if_neg (by omega), if_neg (by omega), if_neg (by omega)]

/-- A store past the end names the first address that does not exist, and answers no memory. -/
theorem Memory.storeBytes_error (m : Memory) (a : Nat) (bs : List Byte) (ha : a ≤ 4096)
    (h : 4096 < a + bs.length) : m.storeBytes a bs = .error 4096 := by
  induction bs generalizing m a with
  | nil => simp at h; omega
  | cons b bs ih =>
    simp only [List.length_cons] at h
    rw [Memory.storeBytes]
    by_cases hlt : a < 4096
    · rw [Memory.write8_ok m hlt]
      exact ih _ _ (by omega) (by omega)
    · rw [Memory.write8_error m (by omega)]
      have : a = 4096 := by omega
      simp [this]

theorem Memory.storeBytes_wf {m m' : Memory} {a : Nat} {bs : List Byte} (h : m.wf)
    (hs : m.storeBytes a bs = .ok m') : m'.wf := by
  induction bs generalizing m a with
  | nil => cases hs; exact h
  | cons b bs ih =>
    rw [Memory.storeBytes] at hs
    split at hs
    · cases hs
    · next hw => exact ih (Memory.wf_write8 h hw) hs

/-- The loader's bytes are in place and nothing else changes. -/
theorem Memory.peek_pokeAll (m : Memory) (a : Nat) (bs : List Byte) (x : Nat) :
    (m.pokeAll a bs).peek x = if a ≤ x ∧ x < a + bs.length then bs.getD (x - a) 0 else m.peek x := by
  induction bs generalizing m a with
  | nil => simp [Memory.pokeAll]
  | cons b bs ih =>
    rw [Memory.pokeAll, ih, Memory.peek_poke, List.length_cons]
    rcases Nat.lt_trichotomy x a with hx | rfl | hx
    · rw [if_neg (by omega), if_neg (by omega), if_neg (by omega)]
    · rw [if_neg (by omega), if_pos rfl, if_pos (by omega)]
      simp
    · have e : x - a = (x - (a + 1)) + 1 := by omega
      by_cases hin : x < a + 1 + bs.length
      · rw [if_pos (by omega), if_pos (by omega), e, List.getD_cons_succ]
      · rw [if_neg (by omega), if_neg (by omega), if_neg (by omega)]

theorem Memory.wf_pokeAll {m : Memory} (h : m.wf) {a : Nat} {bs : List Byte}
    (hb : a + bs.length ≤ 4096) : (m.pokeAll a bs).wf := by
  induction bs generalizing m a with
  | nil => exact h
  | cons b bs ih =>
    simp only [List.length_cons] at hb
    exact ih (Memory.wf_poke h (by omega) b) (by omega)

end Sys2Proof.Machine
end

