-- ==== Sys2Proof/Laws/Ops.lean ====
section
/-! SUPPORT. What the register, keypad, framebuffer and drawing operations do, one lemma each. -/

namespace Sys2Proof.Machine

/-! ## Registers -/

theorem nibble_lt (r : Nibble) : r.toNat < 16 := r.isLt

@[simp] theorem RegFile.get_set (v : RegFile) (r q : Nibble) (b : Byte) :
    RegFile.get (RegFile.set v r b) q = if q = r then b else RegFile.get v q := by
  unfold RegFile.get RegFile.set
  rw [Vector.getElem_set]
  by_cases h : q = r
  · simp [h]
  · have : r.toNat ≠ q.toNat := fun e => h (BitVec.eq_of_toNat_eq e.symm)
    simp [h, this]

@[simp] theorem State.reg_setReg (s : State) (r q : Nibble) (b : Byte) :
    (s.setReg r b).reg q = if q = r then b else s.reg q := RegFile.get_set s.v r q b

/-- What loading a run of registers leaves in each register. -/
theorem RegFile.get_setFrom (v : RegFile) (r q : Nibble) (bs : List Byte) (h : r.toNat + bs.length ≤ 16) :
    RegFile.get (RegFile.setFrom v r bs) q =
      if r.toNat ≤ q.toNat ∧ q.toNat < r.toNat + bs.length then bs.getD (q.toNat - r.toNat) 0
      else RegFile.get v q := by
  induction bs generalizing v r with
  | nil => simp [RegFile.setFrom]
  | cons b bs ih =>
    rw [List.length_cons] at h ⊢
    rw [RegFile.setFrom]
    have eq_iff : q = r ↔ q.toNat = r.toNat := BitVec.toNat_inj.symm
    by_cases hl : bs.length = 0
    · rw [List.length_eq_zero_iff.1 hl, RegFile.setFrom, RegFile.get_set]
      simp only [eq_iff]
      by_cases he : q.toNat = r.toNat
      · simp [he]
      · rw [if_neg he, if_neg (by simp; omega)]
    · have hr : (r + 1).toNat = r.toNat + 1 := by
        have := nibble_lt r
        rw [BitVec.toNat_add]
        simp
        omega
      rw [ih _ _ (by omega), hr, RegFile.get_set]
      simp only [eq_iff]
      rcases Nat.lt_trichotomy q.toNat r.toNat with hq | hq | hq
      · rw [if_neg (by omega), if_neg (by omega), if_neg (by omega)]
      · rw [if_neg (by omega), if_pos hq, if_pos (by omega)]
        simp [hq]
      · by_cases hin : q.toNat < r.toNat + 1 + bs.length
        · have e : q.toNat - r.toNat = (q.toNat - (r.toNat + 1)) + 1 := by omega
          rw [if_pos (by omega), if_pos (by omega), e, List.getD_cons_succ]
        · rw [if_neg (by omega), if_neg (by omega), if_neg (by omega)]

@[simp] theorem RegFile.length_upTo (v : RegFile) (x : Nibble) : (RegFile.upTo v x).length = x.toNat + 1 := by
  have := nibble_lt x
  simp [RegFile.upTo]
  omega

/-- The bytes FX55 stores are the registers in order. -/
theorem RegFile.getD_upTo (v : RegFile) (x q : Nibble) (h : q.toNat ≤ x.toNat) :
    (RegFile.upTo v x).getD q.toNat 0 = RegFile.get v q := by
  have := nibble_lt q
  simp [RegFile.upTo, RegFile.get, List.getD_eq_getElem?_getD, Nat.lt_succ_of_le h, this]

/-- A result then a flag: the flag remains in VF (R127, R128, R130). -/
theorem RegFile.get_setWithFlag (v : RegFile) (x q : Nibble) (result flag : Byte) :
    RegFile.get (RegFile.setWithFlag v x result flag) q =
      if q = flagReg then flag else if q = x then result else RegFile.get v q := by
  simp [RegFile.setWithFlag]

/-- A shift of a register other than VF: the three readings agree (R129, R131). -/
theorem RegFile.get_shift (v : RegFile) (x q : Nibble) (flag result : Byte → Byte) (hx : x ≠ flagReg) :
    RegFile.get (RegFile.shift v x flag result) q =
      if q = flagReg then flag (RegFile.get v x) else if q = x then result (RegFile.get v x)
      else RegFile.get v q := by
  unfold RegFile.shift
  cases Config.vfShiftAlias <;> simp only [RegFile.get_set, if_neg hx]
  · by_cases h1 : q = flagReg
    · simp [h1, Ne.symm hx]
    · simp [h1]
  · by_cases h1 : q = flagReg
    · simp [h1, Ne.symm hx]
    · simp [h1]

/-! ## Keypad -/

theorem State.keyPressed_setKey (s : State) (k q : Nibble) (b : Bool) :
    (s.setKey k b).keyPressed q = if q = k then b else s.keyPressed q := by
  unfold State.keyPressed State.setKey
  simp only
  rw [Vector.getElem_set]
  by_cases h : q = k
  · simp [h]
  · have : k.toNat ≠ q.toNat := fun e => h (BitVec.eq_of_toNat_eq e.symm)
    simp [h, this]

/-! ## Framebuffer -/

theorem Framebuffer.pixel_setPixel (fb : Framebuffer) (px py x y : Nat) (b : Bool)
    (hx : px < 64) (hy : py < 32) :
    (Framebuffer.setPixel fb px py b).pixel x y = if x = px ∧ y = py then b else Framebuffer.pixel fb x y := by
  unfold Framebuffer.setPixel
  rw [dif_pos ⟨hx, hy⟩]
  unfold Framebuffer.pixel
  by_cases hr : x < Config.fbWidth ∧ y < Config.fbHeight
  · rw [dif_pos hr, dif_pos hr]
    by_cases h2 : y = py
    · subst h2
      by_cases h1 : x = px
      · simp [h1]
      · simp [h1, Ne.symm h1]
    · simp [h2, Ne.symm h2]
  · rw [dif_neg hr, dif_neg hr, if_neg]
    rintro ⟨rfl, rfl⟩
    exact hr ⟨hx, hy⟩

@[simp] theorem Framebuffer.pixel_dark (x y : Nat) : Framebuffer.dark.pixel x y = false := by
  unfold Framebuffer.pixel Framebuffer.dark
  split
  · simp
  · rfl

/-- Framebuffers with the same pixels are equal. -/
theorem Framebuffer.ext_pixel {f g : Framebuffer}
    (h : ∀ x y, x < Config.fbWidth → y < Config.fbHeight → f.pixel x y = g.pixel x y) : f = g := by
  apply Vector.ext
  intro y hy
  apply Vector.ext
  intro x hx
  have := h x y hx hy
  simpa [Framebuffer.pixel, hx, hy] using this

/-! ## Drawing (R151, R152) -/

/-- One pixel: the XOR of R152, and the collision. -/
theorem Canvas.drawPixel_spec (c : Canvas) (px py : Nat) (bit : Bool)
    (hx : px < 64) (hy : py < 32) :
    (∀ x y, (c.drawPixel px py bit).fb.pixel x y =
      (c.fb.pixel x y ^^ (decide (x = px ∧ y = py) && bit))) ∧
    (c.drawPixel px py bit).hit = (c.hit || (bit && c.fb.pixel px py)) := by
  unfold Canvas.drawPixel
  cases hb : bit <;> cases hp : c.fb.pixel px py <;>
    refine ⟨fun x y => ?_, by simp⟩ <;>
    simp only [Bool.and_false, Bool.and_true, if_true, if_false,
      Framebuffer.pixel_setPixel _ _ _ _ _ _ hx hy, Bool.false_eq_true] <;>
    by_cases h : x = px ∧ y = py <;> simp [h, hp]

/-- One row, clipped at the right edge: its pixels XORed with the sprite's bits, and the collision. -/
theorem Canvas.drawRow_spec (c : Canvas) (px py : Nat) (bits : List Bool) (hy : py < 32) :
    (∀ x y, (c.drawRow px py bits).fb.pixel x y =
      (c.fb.pixel x y ^^ (decide (y = py ∧ px ≤ x ∧ x < 64) && bits.getD (x - px) false))) ∧
    ((c.drawRow px py bits).hit = true ↔
      c.hit = true ∨ ∃ x, px ≤ x ∧ x < 64 ∧ bits.getD (x - px) false = true ∧ c.fb.pixel x py = true) := by
  induction bits generalizing c px with
  | nil => simp [Canvas.drawRow]
  | cons bit bits ih =>
    rw [Canvas.drawRow]
    by_cases hpx : px > 63
    · rw [if_pos hpx]
      refine ⟨fun x y => ?_, ?_⟩
      · rw [decide_eq_false (by omega)]
        simp
      · constructor
        · exact Or.inl
        · rintro (h | ⟨x, h1, h2, -⟩)
          · exact h
          · omega
    · rw [if_neg hpx]
      obtain ⟨p1, p2⟩ := Canvas.drawPixel_spec c px py bit (by omega) hy
      obtain ⟨q1, q2⟩ := ih (c.drawPixel px py bit) (px + 1)
      refine ⟨fun x y => ?_, ?_⟩
      · rw [q1, p1, Bool.xor_assoc]
        congr 1
        rcases Nat.lt_trichotomy x px with h | h | h
        · have e1 : ¬ (y = py ∧ px + 1 ≤ x ∧ x < 64) := by omega
          have e2 : ¬ (y = py ∧ px ≤ x ∧ x < 64) := by omega
          have e3 : ¬ (x = px ∧ y = py) := by omega
          rw [decide_eq_false e1, decide_eq_false e2, decide_eq_false e3]
          rfl
        · have e1 : ¬ (y = py ∧ px + 1 ≤ x ∧ x < 64) := by omega
          simp only [e1, decide_false, Bool.false_and, Bool.xor_false]
          by_cases hyy : y = py
          · have e2 : y = py ∧ px ≤ x ∧ x < 64 := by omega
            have e3 : x = px ∧ y = py := ⟨h, hyy⟩
            rw [decide_eq_true e2, decide_eq_true e3, h]
            simp
          · simp [hyy]
        · have e3 : ¬ (x = px ∧ y = py) := by omega
          have e4 : x - px = (x - (px + 1)) + 1 := by omega
          have e5 : (y = py ∧ px + 1 ≤ x ∧ x < 64) ↔ (y = py ∧ px ≤ x ∧ x < 64) := by omega
          simp only [e3, e4, e5, List.getD_cons_succ, decide_false, Bool.false_and, Bool.false_xor]
      · rw [q2, p2]
        constructor
        · rintro (h | ⟨x, h1, h2, h3, h4⟩)
          · rcases Bool.or_eq_true _ _ ▸ h with h | h
            · exact Or.inl h
            · rw [Bool.and_eq_true] at h
              exact Or.inr ⟨px, le_refl _, by omega, by simpa using h.1, h.2⟩
          · have e4 : x - px = (x - (px + 1)) + 1 := by omega
            have e3 : ¬ (x = px ∧ py = py) := by omega
            rw [p1, decide_eq_false e3] at h4
            exact Or.inr ⟨x, by omega, h2, by rw [e4, List.getD_cons_succ]; exact h3, by simpa using h4⟩
        · rintro (h | ⟨x, h1, h2, h3, h4⟩)
          · exact Or.inl (by simp [h])
          · by_cases hx : x = px
            · subst hx
              exact Or.inl (by simp at h3; simp [h3, h4])
            · have e4 : x - px = (x - (px + 1)) + 1 := by omega
              have e3 : ¬ (x = px ∧ py = py) := by omega
              rw [e4, List.getD_cons_succ] at h3
              exact Or.inr ⟨x, by omega, h2, h3, by rw [p1, decide_eq_false e3]; simpa using h4⟩

/-- The bit of a sprite byte that lands `d` columns right of its start (R151). -/
theorem getD_spriteBits (b : Byte) (d : Nat) :
    (spriteBits b).getD d false = (decide (d ≤ 7) && b.getLsbD (7 - d)) := by
  unfold spriteBits
  rcases d with _ | _ | _ | _ | _ | _ | _ | _ | d <;> simp

/-- A whole sprite: its pixels XORed with its bits inside the clipped area, and the collision (R151). -/
theorem Canvas.drawRows_spec (c : Canvas) (px py : Nat) (rows : List Byte)
    (hy : py + rows.length ≤ 32) :
    (∀ x y, (c.drawRows px py rows).fb.pixel x y =
      (c.fb.pixel x y ^^ (decide (px ≤ x ∧ x ≤ px + 7 ∧ x < 64 ∧ py ≤ y ∧ y < py + rows.length) &&
        (rows.getD (y - py) 0).getLsbD (7 - (x - px))))) ∧
    ((c.drawRows px py rows).hit = true ↔
      c.hit = true ∨ ∃ x y, (px ≤ x ∧ x ≤ px + 7 ∧ x < 64 ∧ py ≤ y ∧ y < py + rows.length) ∧
        (rows.getD (y - py) 0).getLsbD (7 - (x - px)) = true ∧ c.fb.pixel x y = true) := by
  induction rows generalizing c py with
  | nil =>
    refine ⟨fun x y => ?_, ?_⟩
    · rw [Canvas.drawRows, decide_eq_false (by simp)]
      simp
    · rw [Canvas.drawRows]
      constructor
      · exact Or.inl
      · rintro (h | ⟨x, y, h, -⟩)
        · exact h
        · simp at h
          omega
  | cons b rows ih =>
    rw [Canvas.drawRows]
    simp only [List.length_cons] at hy ⊢
    obtain ⟨p1, p2⟩ := Canvas.drawRow_spec c px py (spriteBits b) (by omega)
    obtain ⟨q1, q2⟩ := ih (c.drawRow px py (spriteBits b)) (py + 1) (by omega)
    simp only [getD_spriteBits] at p1 p2
    refine ⟨fun x y => ?_, ?_⟩
    · rw [q1, p1, Bool.xor_assoc]
      congr 1
      rcases Nat.lt_trichotomy y py with h | h | h
      · have d1 : decide (px ≤ x ∧ x ≤ px + 7 ∧ x < 64 ∧ py + 1 ≤ y ∧ y < py + 1 + rows.length) = false :=
          decide_eq_false (by omega)
        have d2 : decide (y = py ∧ px ≤ x ∧ x < 64) = false := decide_eq_false (by omega)
        have d3 : decide (px ≤ x ∧ x ≤ px + 7 ∧ x < 64 ∧ py ≤ y ∧ y < py + (rows.length + 1)) = false :=
          decide_eq_false (by omega)
        rw [d1, d2, d3]
        rfl
      · have e2 : (y = py ∧ px ≤ x ∧ x < 64) ∧ x - px ≤ 7 ↔
            (px ≤ x ∧ x ≤ px + 7 ∧ x < 64 ∧ py ≤ y ∧ y < py + (rows.length + 1)) := by omega
        have e3 : y - py = 0 := by omega
        have d1 : decide (px ≤ x ∧ x ≤ px + 7 ∧ x < 64 ∧ py + 1 ≤ y ∧ y < py + 1 + rows.length) = false :=
          decide_eq_false (by omega)
        rw [← Bool.and_assoc, ← Bool.decide_and, decide_eq_decide.2 e2, d1, e3, Bool.false_and, Bool.xor_false,
          List.getD_cons_zero]
      · rw [decide_eq_false (p := y = py ∧ px ≤ x ∧ x < 64) (by omega)]
        have e : y - py = (y - (py + 1)) + 1 := by omega
        simp only [Bool.false_and, Bool.false_xor, e, List.getD_cons_succ]
        congr 1
        simp only [decide_eq_decide]
        omega
    · rw [q2, p2]
      constructor
      · rintro ((h | ⟨x, h1, h2, h3, h4⟩) | ⟨x, y, h1, h2, h3⟩)
        · exact Or.inl h
        · rw [Bool.and_eq_true, decide_eq_true_eq] at h3
          exact Or.inr ⟨x, py, ⟨h1, by omega, h2, le_refl _, by omega⟩, by simpa using h3.2, h4⟩
        · have e : y - py = (y - (py + 1)) + 1 := by omega
          rw [p1, decide_eq_false (p := y = py ∧ px ≤ x ∧ x < 64) (by omega)] at h3
          exact Or.inr ⟨x, y, by omega, by rw [e, List.getD_cons_succ]; exact h2, by simpa using h3⟩
      · rintro (h | ⟨x, y, h1, h2, h3⟩)
        · exact Or.inl (Or.inl h)
        · by_cases hyy : y = py
          · subst hyy
            refine Or.inl (Or.inr ⟨x, h1.1, h1.2.2.1, ?_, h3⟩)
            rw [Bool.and_eq_true, decide_eq_true_eq]
            exact ⟨by omega, by simpa using h2⟩
          · have e : y - py = (y - (py + 1)) + 1 := by omega
            rw [e, List.getD_cons_succ] at h2
            refine Or.inr ⟨x, y, by omega, h2, ?_⟩
            rw [p1, decide_eq_false (p := y = py ∧ px ≤ x ∧ x < 64) (by omega)]
            simpa using h3

/-! ## The execute step -/

/-- No instruction stops the machine with a fault or a refusal of the model: every outcome is a next state. -/
theorem exec_next (i : Instr) (s : State) : ∃ t, exec i s = .next t := by
  cases i <;>
    first
    | exact ⟨_, rfl⟩
    | simp only [exec, execRet, execCall, execDrw, execSkp, execSknp, execLoadRegs]
      split <;> exact ⟨_, rfl⟩

end Sys2Proof.Machine
end

