-- ==== Sys2Proof/Laws/State.lean ====
section
/-! SUPPORT. What each named update of State does to each field, one lemma per field, so that no proof unfolds a
record update. -/

namespace Sys2Proof.Machine

variable (s : State)

/-! ## `State.setReg` -/

@[simp] theorem State.setReg_mem (r : Nibble) (b : Byte) : (s.setReg r b).mem = s.mem := rfl
@[simp] theorem State.setReg_v (r : Nibble) (b : Byte) : (s.setReg r b).v = RegFile.set s.v r b := rfl
@[simp] theorem State.setReg_i (r : Nibble) (b : Byte) : (s.setReg r b).i = s.i := rfl
@[simp] theorem State.setReg_pc (r : Nibble) (b : Byte) : (s.setReg r b).pc = s.pc := rfl
@[simp] theorem State.setReg_sp (r : Nibble) (b : Byte) : (s.setReg r b).sp = s.sp := rfl
@[simp] theorem State.setReg_stack (r : Nibble) (b : Byte) : (s.setReg r b).stack = s.stack := rfl
@[simp] theorem State.setReg_dt (r : Nibble) (b : Byte) : (s.setReg r b).dt = s.dt := rfl
@[simp] theorem State.setReg_st (r : Nibble) (b : Byte) : (s.setReg r b).st = s.st := rfl
@[simp] theorem State.setReg_key (r : Nibble) (b : Byte) : (s.setReg r b).key = s.key := rfl
@[simp] theorem State.setReg_fb (r : Nibble) (b : Byte) : (s.setReg r b).fb = s.fb := rfl
@[simp] theorem State.setReg_redraw (r : Nibble) (b : Byte) : (s.setReg r b).redraw = s.redraw := rfl
@[simp] theorem State.setReg_exec (r : Nibble) (b : Byte) : (s.setReg r b).exec = s.exec := rfl
@[simp] theorem State.setReg_fault (r : Nibble) (b : Byte) : (s.setReg r b).fault = s.fault := rfl
@[simp] theorem State.setReg_inputs (r : Nibble) (b : Byte) : (s.setReg r b).inputs = s.inputs := rfl
@[simp] theorem State.setReg_presents (r : Nibble) (b : Byte) : (s.setReg r b).presents = s.presents := rfl
@[simp] theorem State.setReg_rndDraws (r : Nibble) (b : Byte) : (s.setReg r b).rndDraws = s.rndDraws := rfl
@[simp] theorem State.setReg_waitDraws (r : Nibble) (b : Byte) : (s.setReg r b).waitDraws = s.waitDraws := rfl

/-! ## `State.setKey` -/

@[simp] theorem State.setKey_mem (k : Nibble) (b : Bool) : (s.setKey k b).mem = s.mem := rfl
@[simp] theorem State.setKey_v (k : Nibble) (b : Bool) : (s.setKey k b).v = s.v := rfl
@[simp] theorem State.setKey_i (k : Nibble) (b : Bool) : (s.setKey k b).i = s.i := rfl
@[simp] theorem State.setKey_pc (k : Nibble) (b : Bool) : (s.setKey k b).pc = s.pc := rfl
@[simp] theorem State.setKey_sp (k : Nibble) (b : Bool) : (s.setKey k b).sp = s.sp := rfl
@[simp] theorem State.setKey_stack (k : Nibble) (b : Bool) : (s.setKey k b).stack = s.stack := rfl
@[simp] theorem State.setKey_dt (k : Nibble) (b : Bool) : (s.setKey k b).dt = s.dt := rfl
@[simp] theorem State.setKey_st (k : Nibble) (b : Bool) : (s.setKey k b).st = s.st := rfl
@[simp] theorem State.setKey_key (k : Nibble) (b : Bool) : (s.setKey k b).key = s.key.set k.toNat b := rfl
@[simp] theorem State.setKey_fb (k : Nibble) (b : Bool) : (s.setKey k b).fb = s.fb := rfl
@[simp] theorem State.setKey_redraw (k : Nibble) (b : Bool) : (s.setKey k b).redraw = s.redraw := rfl
@[simp] theorem State.setKey_exec (k : Nibble) (b : Bool) : (s.setKey k b).exec = s.exec := rfl
@[simp] theorem State.setKey_fault (k : Nibble) (b : Bool) : (s.setKey k b).fault = s.fault := rfl
@[simp] theorem State.setKey_inputs (k : Nibble) (b : Bool) : (s.setKey k b).inputs = s.inputs := rfl
@[simp] theorem State.setKey_presents (k : Nibble) (b : Bool) : (s.setKey k b).presents = s.presents := rfl
@[simp] theorem State.setKey_rndDraws (k : Nibble) (b : Bool) : (s.setKey k b).rndDraws = s.rndDraws := rfl
@[simp] theorem State.setKey_waitDraws (k : Nibble) (b : Bool) : (s.setKey k b).waitDraws = s.waitDraws := rfl

/-! ## `State.stopWith` -/

@[simp] theorem State.stopWith_mem (r : FaultRecord) : (s.stopWith r).mem = s.mem := rfl
@[simp] theorem State.stopWith_v (r : FaultRecord) : (s.stopWith r).v = s.v := rfl
@[simp] theorem State.stopWith_i (r : FaultRecord) : (s.stopWith r).i = s.i := rfl
@[simp] theorem State.stopWith_pc (r : FaultRecord) : (s.stopWith r).pc = s.pc := rfl
@[simp] theorem State.stopWith_sp (r : FaultRecord) : (s.stopWith r).sp = s.sp := rfl
@[simp] theorem State.stopWith_stack (r : FaultRecord) : (s.stopWith r).stack = s.stack := rfl
@[simp] theorem State.stopWith_dt (r : FaultRecord) : (s.stopWith r).dt = s.dt := rfl
@[simp] theorem State.stopWith_st (r : FaultRecord) : (s.stopWith r).st = s.st := rfl
@[simp] theorem State.stopWith_key (r : FaultRecord) : (s.stopWith r).key = s.key := rfl
@[simp] theorem State.stopWith_fb (r : FaultRecord) : (s.stopWith r).fb = s.fb := rfl
@[simp] theorem State.stopWith_redraw (r : FaultRecord) : (s.stopWith r).redraw = s.redraw := rfl
@[simp] theorem State.stopWith_exec (r : FaultRecord) : (s.stopWith r).exec = .stopped := rfl
@[simp] theorem State.stopWith_fault (r : FaultRecord) : (s.stopWith r).fault = some r := rfl
@[simp] theorem State.stopWith_inputs (r : FaultRecord) : (s.stopWith r).inputs = s.inputs := rfl
@[simp] theorem State.stopWith_presents (r : FaultRecord) : (s.stopWith r).presents = s.presents := rfl
@[simp] theorem State.stopWith_rndDraws (r : FaultRecord) : (s.stopWith r).rndDraws = s.rndDraws := rfl
@[simp] theorem State.stopWith_waitDraws (r : FaultRecord) : (s.stopWith r).waitDraws = s.waitDraws := rfl

/-! ## `State.raiseInFetch` -/

@[simp] theorem State.raiseInFetch_mem (k : FaultKind) (w : Option Word) (n : Nat) :
    (s.raiseInFetch k w n).mem = s.mem := rfl
@[simp] theorem State.raiseInFetch_v (k : FaultKind) (w : Option Word) (n : Nat) :
    (s.raiseInFetch k w n).v = s.v := rfl
@[simp] theorem State.raiseInFetch_i (k : FaultKind) (w : Option Word) (n : Nat) :
    (s.raiseInFetch k w n).i = s.i := rfl
@[simp] theorem State.raiseInFetch_pc (k : FaultKind) (w : Option Word) (n : Nat) :
    (s.raiseInFetch k w n).pc = s.pc := rfl
@[simp] theorem State.raiseInFetch_sp (k : FaultKind) (w : Option Word) (n : Nat) :
    (s.raiseInFetch k w n).sp = s.sp := rfl
@[simp] theorem State.raiseInFetch_stack (k : FaultKind) (w : Option Word) (n : Nat) :
    (s.raiseInFetch k w n).stack = s.stack := rfl
@[simp] theorem State.raiseInFetch_dt (k : FaultKind) (w : Option Word) (n : Nat) :
    (s.raiseInFetch k w n).dt = s.dt := rfl
@[simp] theorem State.raiseInFetch_st (k : FaultKind) (w : Option Word) (n : Nat) :
    (s.raiseInFetch k w n).st = s.st := rfl
@[simp] theorem State.raiseInFetch_key (k : FaultKind) (w : Option Word) (n : Nat) :
    (s.raiseInFetch k w n).key = s.key := rfl
@[simp] theorem State.raiseInFetch_fb (k : FaultKind) (w : Option Word) (n : Nat) :
    (s.raiseInFetch k w n).fb = s.fb := rfl
@[simp] theorem State.raiseInFetch_redraw (k : FaultKind) (w : Option Word) (n : Nat) :
    (s.raiseInFetch k w n).redraw = s.redraw := rfl
@[simp] theorem State.raiseInFetch_exec (k : FaultKind) (w : Option Word) (n : Nat) :
    (s.raiseInFetch k w n).exec = .stopped := rfl
@[simp] theorem State.raiseInFetch_fault (k : FaultKind) (w : Option Word) (n : Nat) :
    (s.raiseInFetch k w n).fault = some { kind := k, pc := some s.pc, word := w, info := .value n } := rfl
@[simp] theorem State.raiseInFetch_inputs (k : FaultKind) (w : Option Word) (n : Nat) :
    (s.raiseInFetch k w n).inputs = s.inputs := rfl
@[simp] theorem State.raiseInFetch_presents (k : FaultKind) (w : Option Word) (n : Nat) :
    (s.raiseInFetch k w n).presents = s.presents := rfl
@[simp] theorem State.raiseInFetch_rndDraws (k : FaultKind) (w : Option Word) (n : Nat) :
    (s.raiseInFetch k w n).rndDraws = s.rndDraws := rfl
@[simp] theorem State.raiseInFetch_waitDraws (k : FaultKind) (w : Option Word) (n : Nat) :
    (s.raiseInFetch k w n).waitDraws = s.waitDraws := rfl

/-! ## `State.raise` -/

@[simp] theorem State.raise_mem (k : FaultKind) (w : Word) (n : Nat) : (s.raise k w n).mem = s.mem := rfl
@[simp] theorem State.raise_v (k : FaultKind) (w : Word) (n : Nat) : (s.raise k w n).v = s.v := rfl
@[simp] theorem State.raise_i (k : FaultKind) (w : Word) (n : Nat) : (s.raise k w n).i = s.i := rfl
@[simp] theorem State.raise_pc (k : FaultKind) (w : Word) (n : Nat) : (s.raise k w n).pc = s.pc - 2 := rfl
@[simp] theorem State.raise_sp (k : FaultKind) (w : Word) (n : Nat) : (s.raise k w n).sp = s.sp := rfl
@[simp] theorem State.raise_stack (k : FaultKind) (w : Word) (n : Nat) : (s.raise k w n).stack = s.stack := rfl
@[simp] theorem State.raise_dt (k : FaultKind) (w : Word) (n : Nat) : (s.raise k w n).dt = s.dt := rfl
@[simp] theorem State.raise_st (k : FaultKind) (w : Word) (n : Nat) : (s.raise k w n).st = s.st := rfl
@[simp] theorem State.raise_key (k : FaultKind) (w : Word) (n : Nat) : (s.raise k w n).key = s.key := rfl
@[simp] theorem State.raise_fb (k : FaultKind) (w : Word) (n : Nat) : (s.raise k w n).fb = s.fb := rfl
@[simp] theorem State.raise_redraw (k : FaultKind) (w : Word) (n : Nat) : (s.raise k w n).redraw = s.redraw := rfl
@[simp] theorem State.raise_exec (k : FaultKind) (w : Word) (n : Nat) : (s.raise k w n).exec = .stopped := rfl
@[simp] theorem State.raise_fault (k : FaultKind) (w : Word) (n : Nat) :
    (s.raise k w n).fault = some { kind := k, pc := some (s.pc - 2), word := some w, info := .value n } := rfl
@[simp] theorem State.raise_inputs (k : FaultKind) (w : Word) (n : Nat) : (s.raise k w n).inputs = s.inputs := rfl
@[simp] theorem State.raise_presents (k : FaultKind) (w : Word) (n : Nat) :
    (s.raise k w n).presents = s.presents := rfl
@[simp] theorem State.raise_rndDraws (k : FaultKind) (w : Word) (n : Nat) :
    (s.raise k w n).rndDraws = s.rndDraws := rfl
@[simp] theorem State.raise_waitDraws (k : FaultKind) (w : Word) (n : Nat) :
    (s.raise k w n).waitDraws = s.waitDraws := rfl

/-! ## `State.countdown` -/

@[simp] theorem State.countdown_mem : (s.countdown).mem = s.mem := rfl
@[simp] theorem State.countdown_v : (s.countdown).v = s.v := rfl
@[simp] theorem State.countdown_i : (s.countdown).i = s.i := rfl
@[simp] theorem State.countdown_pc : (s.countdown).pc = s.pc := rfl
@[simp] theorem State.countdown_sp : (s.countdown).sp = s.sp := rfl
@[simp] theorem State.countdown_stack : (s.countdown).stack = s.stack := rfl
@[simp] theorem State.countdown_dt : (s.countdown).dt = timerStep s.dt := rfl
@[simp] theorem State.countdown_st : (s.countdown).st = timerStep s.st := rfl
@[simp] theorem State.countdown_key : (s.countdown).key = s.key := rfl
@[simp] theorem State.countdown_fb : (s.countdown).fb = s.fb := rfl
@[simp] theorem State.countdown_redraw : (s.countdown).redraw = s.redraw := rfl
@[simp] theorem State.countdown_exec : (s.countdown).exec = s.exec := rfl
@[simp] theorem State.countdown_fault : (s.countdown).fault = s.fault := rfl
@[simp] theorem State.countdown_inputs : (s.countdown).inputs = s.inputs := rfl
@[simp] theorem State.countdown_presents : (s.countdown).presents = s.presents := rfl
@[simp] theorem State.countdown_rndDraws : (s.countdown).rndDraws = s.rndDraws := rfl
@[simp] theorem State.countdown_waitDraws : (s.countdown).waitDraws = s.waitDraws := rfl

/-! ## `State.endWait` -/

@[simp] theorem State.endWait_mem (d k : Nibble) : (s.endWait d k).mem = s.mem := rfl
@[simp] theorem State.endWait_v (d k : Nibble) : (s.endWait d k).v = RegFile.set s.v d (k.setWidth 8) := rfl
@[simp] theorem State.endWait_i (d k : Nibble) : (s.endWait d k).i = s.i := rfl
@[simp] theorem State.endWait_pc (d k : Nibble) : (s.endWait d k).pc = s.pc := rfl
@[simp] theorem State.endWait_sp (d k : Nibble) : (s.endWait d k).sp = s.sp := rfl
@[simp] theorem State.endWait_stack (d k : Nibble) : (s.endWait d k).stack = s.stack := rfl
@[simp] theorem State.endWait_dt (d k : Nibble) : (s.endWait d k).dt = s.dt := rfl
@[simp] theorem State.endWait_st (d k : Nibble) : (s.endWait d k).st = s.st := rfl
@[simp] theorem State.endWait_key (d k : Nibble) : (s.endWait d k).key = s.key := rfl
@[simp] theorem State.endWait_fb (d k : Nibble) : (s.endWait d k).fb = s.fb := rfl
@[simp] theorem State.endWait_redraw (d k : Nibble) : (s.endWait d k).redraw = s.redraw := rfl
@[simp] theorem State.endWait_exec (d k : Nibble) : (s.endWait d k).exec = .running := rfl
@[simp] theorem State.endWait_fault (d k : Nibble) : (s.endWait d k).fault = s.fault := rfl
@[simp] theorem State.endWait_inputs (d k : Nibble) : (s.endWait d k).inputs = s.inputs := rfl
@[simp] theorem State.endWait_presents (d k : Nibble) : (s.endWait d k).presents = s.presents := rfl
@[simp] theorem State.endWait_rndDraws (d k : Nibble) : (s.endWait d k).rndDraws = s.rndDraws := rfl
@[simp] theorem State.endWait_waitDraws (d k : Nibble) : (s.endWait d k).waitDraws = s.waitDraws := rfl

end Sys2Proof.Machine
end

