-- ==== Sys2Proof/Laws/Step.lean ====
section
/-! SUPPORT. What a tick can do, said once (60_exceptions.md R209 to R216). -/

namespace Sys2Proof.Machine

/-! ## Phases 1 and 2 -/

/-- Phase 2's events change KEY and nothing else. -/
theorem State.foldl_applyEvent (s : State) (es : List Event) :
    ∃ k, es.foldl State.applyEvent s = { s with key := k } := by
  induction es generalizing s with
  | nil => exact ⟨s.key, rfl⟩
  | cons e es ih =>
    obtain ⟨k, hk⟩ := ih (s.applyEvent e)
    cases e <;> exact ⟨k, hk⟩

/-- Phases 1 and 2 change the timers, KEY and the consumed input, and nothing else (R210, R211). -/
theorem State.afterInput_eq (s : State) :
    ∃ k, s.afterInput =
      { s with dt := timerStep s.dt, st := timerStep s.st, key := k, inputs := s.inputs.tail } := by
  obtain ⟨k, hk⟩ := State.foldl_applyEvent s.countdown s.countdown.events
  exact ⟨k, by rw [State.afterInput, State.syncInput, hk]; rfl⟩

/-! ## Phase 3 -/

/-- Phase 3 changes nothing, or ends a wait with one of the observed key-downs (R212). -/
theorem State.completeWait_cases (s : State) (downs : List Nibble) :
    (s.completeWait downs = s ∧ ((∀ d, s.exec ≠ .waitingForKey d) ∨ downs = [])) ∨
    ∃ d k n, s.exec = .waitingForKey d ∧ k ∈ downs ∧
      s.completeWait downs = { s.endWait d k with waitDraws := n } := by
  unfold State.completeWait
  cases he : s.exec with
  | waitingForKey d =>
    match downs with
    | [] => exact .inl ⟨rfl, .inr rfl⟩
    | [k] => exact .inr ⟨d, k, s.waitDraws, rfl, by simp, rfl⟩
    | k :: l :: ks =>
      refine .inr ⟨d, _, s.waitDraws + 1, rfl, ?_, rfl⟩
      rw [List.getD_eq_getElem _ _ (Nat.mod_lt _ (by simp))]
      exact List.getElem_mem _
  | running => exact .inl ⟨rfl, .inl fun d h => by cases h⟩
  | stopped => exact .inl ⟨rfl, .inl fun d h => by cases h⟩
  | paused => exact .inl ⟨rfl, .inl fun d h => by cases h⟩

/-- A key-down is observed exactly when the tick's events hold it (R211). -/
theorem mem_keyDowns {es : List Event} {k : Nibble} : k ∈ keyDowns es ↔ .keyDown k ∈ es := by
  unfold keyDowns
  rw [List.mem_filter]
  have : k ∈ (List.range 16).map (BitVec.ofNat 4) :=
    List.mem_map.2 ⟨k.toNat, List.mem_range.2 k.isLt, by simp⟩
  simp [this]

/-! ## Phase 5 -/

/-- Phase 5 takes a fault of the fetch or runs the decoded instruction (R204, R214). -/
theorem State.fetchExecute_cases (s : State) :
    (∃ k w n, s.fetchExecute = .next (s.raiseInFetch k w n)) ∨
    ∃ i, s.pc.toNat + 2 ≤ 4095 ∧
      decodeWord (packWord (s.mem.peek s.pc.toNat) (s.mem.peek (s.pc.toNat + 1))) = some i ∧
      s.fetchExecute = Machine.exec i { s with pc := s.pc + 2 } := by
  unfold State.fetchExecute
  split
  · exact .inl ⟨_, _, _, rfl⟩
  · next w hw =>
    split
    · exact .inl ⟨_, _, _, rfl⟩
    · next hpc =>
      split
      · exact .inl ⟨_, _, _, rfl⟩
      · next i hi =>
        have h16 : Memory.read16 s.mem s.pc.toNat =
            .ok (packWord (s.mem.peek s.pc.toNat) (s.mem.peek (s.pc.toNat + 1))) := by
          have h0 : s.pc.toNat < 4096 := s.pc.isLt
          have h1 : s.pc.toNat + 1 < 4096 := by omega
          simp [Memory.read16, Memory.read8, h0, h1]
        rw [hw] at h16
        cases h16
        exact .inr ⟨i, by omega, hi, rfl⟩

/-- Phase 5 always answers a next state. -/
theorem State.fetchExecute_next (s : State) : ∃ t, s.fetchExecute = .next t := by
  rcases s.fetchExecute_cases with ⟨k, w, n, h⟩ | ⟨i, -, -, h⟩
  · exact ⟨_, h⟩
  · obtain ⟨t, ht⟩ := exec_next i { s with pc := s.pc + 2 }
    exact ⟨t, h.trans ht⟩

/-! ## The tick -/

/-- Phases 1 to 3 leave every field but the timers, KEY, the inputs, V, EXEC and the choice counter alone. -/
theorem State.beforeFetch_eq (s : State) :
    s.beforeFetch =
      { s with
        dt := timerStep s.dt, st := timerStep s.st, key := s.afterInput.key, inputs := s.inputs.tail,
        v := s.beforeFetch.v, exec := s.beforeFetch.exec, waitDraws := s.beforeFetch.waitDraws } := by
  obtain ⟨k, hk⟩ := s.afterInput_eq
  rcases s.afterInput.completeWait_cases (keyDowns s.events) with ⟨h, -⟩ | ⟨d, j, n, -, -, h⟩
  · rw [State.beforeFetch, h, hk]
  · rw [State.beforeFetch, h, hk]
    rfl

/-- A machine that is not waiting enters phase 4 as phases 1 and 2 left it (R212). -/
theorem State.beforeFetch_of_not_waiting (s : State) (h : ∀ d, s.exec ≠ .waitingForKey d) :
    s.beforeFetch = s.afterInput := by
  obtain ⟨k, hk⟩ := s.afterInput_eq
  rcases s.afterInput.completeWait_cases (keyDowns s.events) with ⟨h', -⟩ | ⟨d, j, n, hd, -, -⟩
  · exact h'
  · rw [hk] at hd
    exact absurd hd (h d)

/-- What a tick that answers a next state did: it was ended by Quit, or ran no instruction, or ran phase 5; the last
two end with phase 6. -/
theorem step_cases {s t : State} (h : step s = .next t) :
    s.exec ≠ .stopped ∧
    ((.quit ∈ s.events ∧ t = { s.afterInput with exec := .stopped }) ∨
     (.quit ∉ s.events ∧
       (s.beforeFetch.exec ≠ .running ∧ t = s.beforeFetch.signalRedraw ∨
        s.beforeFetch.exec = .running ∧ ∃ u, s.beforeFetch.fetchExecute = .next u ∧ t = u.signalRedraw))) := by
  unfold step State.tick at h
  split at h
  · cases h
  · next hs =>
    refine ⟨hs, ?_⟩
    split at h
    · next hq => cases h; exact .inl ⟨by simpa using hq, rfl⟩
    · next hq =>
      refine .inr ⟨by simpa using hq, ?_⟩
      unfold State.dispatch at h
      split at h
      · next hr =>
        obtain ⟨u, hu⟩ := s.beforeFetch.fetchExecute_next
        rw [hu] at h
        cases h
        exact .inr ⟨hr, u, hu, rfl⟩
      · next hr => cases h; exact .inl ⟨hr, rfl⟩

/-- Every tick of a machine that has not stopped answers a next state. -/
theorem step_next (s : State) (h : s.exec ≠ .stopped) : ∃ t, step s = .next t := by
  unfold step State.tick
  rw [if_neg h]
  split
  · exact ⟨_, rfl⟩
  · unfold State.dispatch
    split
    · obtain ⟨u, hu⟩ := s.beforeFetch.fetchExecute_next
      rw [hu]
      exact ⟨_, rfl⟩
    · exact ⟨_, rfl⟩

/-- Phase 6 changes the redraw flag and the host's output, and nothing else. -/
theorem State.signalRedraw_eq (s : State) :
    s.signalRedraw = { s with redraw := s.signalRedraw.redraw, presents := s.signalRedraw.presents } := by
  unfold State.signalRedraw
  split
  · rfl
  · split <;> rfl

/-! ## Fields after phases 1 to 3, and after phase 6 -/

variable (s : State)

@[simp] theorem State.beforeFetch_mem : s.beforeFetch.mem = s.mem :=
  (congrArg State.mem s.beforeFetch_eq).trans rfl
@[simp] theorem State.beforeFetch_i : s.beforeFetch.i = s.i :=
  (congrArg State.i s.beforeFetch_eq).trans rfl
@[simp] theorem State.beforeFetch_pc : s.beforeFetch.pc = s.pc :=
  (congrArg State.pc s.beforeFetch_eq).trans rfl
@[simp] theorem State.beforeFetch_sp : s.beforeFetch.sp = s.sp :=
  (congrArg State.sp s.beforeFetch_eq).trans rfl
@[simp] theorem State.beforeFetch_stack : s.beforeFetch.stack = s.stack :=
  (congrArg State.stack s.beforeFetch_eq).trans rfl
@[simp] theorem State.beforeFetch_dt : s.beforeFetch.dt = timerStep s.dt :=
  (congrArg State.dt s.beforeFetch_eq).trans rfl
@[simp] theorem State.beforeFetch_st : s.beforeFetch.st = timerStep s.st :=
  (congrArg State.st s.beforeFetch_eq).trans rfl
@[simp] theorem State.beforeFetch_inputs : s.beforeFetch.inputs = s.inputs.tail :=
  (congrArg State.inputs s.beforeFetch_eq).trans rfl
@[simp] theorem State.beforeFetch_fb : s.beforeFetch.fb = s.fb :=
  (congrArg State.fb s.beforeFetch_eq).trans rfl
@[simp] theorem State.beforeFetch_redraw : s.beforeFetch.redraw = s.redraw :=
  (congrArg State.redraw s.beforeFetch_eq).trans rfl
@[simp] theorem State.beforeFetch_fault : s.beforeFetch.fault = s.fault :=
  (congrArg State.fault s.beforeFetch_eq).trans rfl
@[simp] theorem State.beforeFetch_presents : s.beforeFetch.presents = s.presents :=
  (congrArg State.presents s.beforeFetch_eq).trans rfl
@[simp] theorem State.beforeFetch_rndDraws : s.beforeFetch.rndDraws = s.rndDraws :=
  (congrArg State.rndDraws s.beforeFetch_eq).trans rfl

@[simp] theorem State.afterInput_mem : s.afterInput.mem = s.mem := by
  obtain ⟨k, hk⟩ := s.afterInput_eq
  rw [hk]
@[simp] theorem State.afterInput_v : s.afterInput.v = s.v := by
  obtain ⟨k, hk⟩ := s.afterInput_eq
  rw [hk]
@[simp] theorem State.afterInput_i : s.afterInput.i = s.i := by
  obtain ⟨k, hk⟩ := s.afterInput_eq
  rw [hk]
@[simp] theorem State.afterInput_pc : s.afterInput.pc = s.pc := by
  obtain ⟨k, hk⟩ := s.afterInput_eq
  rw [hk]
@[simp] theorem State.afterInput_sp : s.afterInput.sp = s.sp := by
  obtain ⟨k, hk⟩ := s.afterInput_eq
  rw [hk]
@[simp] theorem State.afterInput_stack : s.afterInput.stack = s.stack := by
  obtain ⟨k, hk⟩ := s.afterInput_eq
  rw [hk]
@[simp] theorem State.afterInput_dt : s.afterInput.dt = timerStep s.dt := by
  obtain ⟨k, hk⟩ := s.afterInput_eq
  rw [hk]
@[simp] theorem State.afterInput_st : s.afterInput.st = timerStep s.st := by
  obtain ⟨k, hk⟩ := s.afterInput_eq
  rw [hk]
@[simp] theorem State.afterInput_fb : s.afterInput.fb = s.fb := by
  obtain ⟨k, hk⟩ := s.afterInput_eq
  rw [hk]
@[simp] theorem State.afterInput_redraw : s.afterInput.redraw = s.redraw := by
  obtain ⟨k, hk⟩ := s.afterInput_eq
  rw [hk]
@[simp] theorem State.afterInput_exec : s.afterInput.exec = s.exec := by
  obtain ⟨k, hk⟩ := s.afterInput_eq
  rw [hk]
@[simp] theorem State.afterInput_fault : s.afterInput.fault = s.fault := by
  obtain ⟨k, hk⟩ := s.afterInput_eq
  rw [hk]
@[simp] theorem State.afterInput_inputs : s.afterInput.inputs = s.inputs.tail := by
  obtain ⟨k, hk⟩ := s.afterInput_eq
  rw [hk]
@[simp] theorem State.afterInput_presents : s.afterInput.presents = s.presents := by
  obtain ⟨k, hk⟩ := s.afterInput_eq
  rw [hk]
@[simp] theorem State.afterInput_rndDraws : s.afterInput.rndDraws = s.rndDraws := by
  obtain ⟨k, hk⟩ := s.afterInput_eq
  rw [hk]
@[simp] theorem State.afterInput_waitDraws : s.afterInput.waitDraws = s.waitDraws := by
  obtain ⟨k, hk⟩ := s.afterInput_eq
  rw [hk]

@[simp] theorem State.signalRedraw_mem : s.signalRedraw.mem = s.mem :=
  (congrArg State.mem s.signalRedraw_eq).trans rfl
@[simp] theorem State.signalRedraw_v : s.signalRedraw.v = s.v :=
  (congrArg State.v s.signalRedraw_eq).trans rfl
@[simp] theorem State.signalRedraw_i : s.signalRedraw.i = s.i :=
  (congrArg State.i s.signalRedraw_eq).trans rfl
@[simp] theorem State.signalRedraw_pc : s.signalRedraw.pc = s.pc :=
  (congrArg State.pc s.signalRedraw_eq).trans rfl
@[simp] theorem State.signalRedraw_sp : s.signalRedraw.sp = s.sp :=
  (congrArg State.sp s.signalRedraw_eq).trans rfl
@[simp] theorem State.signalRedraw_stack : s.signalRedraw.stack = s.stack :=
  (congrArg State.stack s.signalRedraw_eq).trans rfl
@[simp] theorem State.signalRedraw_dt : s.signalRedraw.dt = s.dt :=
  (congrArg State.dt s.signalRedraw_eq).trans rfl
@[simp] theorem State.signalRedraw_st : s.signalRedraw.st = s.st :=
  (congrArg State.st s.signalRedraw_eq).trans rfl
@[simp] theorem State.signalRedraw_key : s.signalRedraw.key = s.key :=
  (congrArg State.key s.signalRedraw_eq).trans rfl
@[simp] theorem State.signalRedraw_fb : s.signalRedraw.fb = s.fb :=
  (congrArg State.fb s.signalRedraw_eq).trans rfl
@[simp] theorem State.signalRedraw_exec : s.signalRedraw.exec = s.exec :=
  (congrArg State.exec s.signalRedraw_eq).trans rfl
@[simp] theorem State.signalRedraw_fault : s.signalRedraw.fault = s.fault :=
  (congrArg State.fault s.signalRedraw_eq).trans rfl
@[simp] theorem State.signalRedraw_inputs : s.signalRedraw.inputs = s.inputs :=
  (congrArg State.inputs s.signalRedraw_eq).trans rfl
@[simp] theorem State.signalRedraw_rndDraws : s.signalRedraw.rndDraws = s.rndDraws :=
  (congrArg State.rndDraws s.signalRedraw_eq).trans rfl
@[simp] theorem State.signalRedraw_waitDraws : s.signalRedraw.waitDraws = s.waitDraws :=
  (congrArg State.waitDraws s.signalRedraw_eq).trans rfl

/-- Phase 3 never touches KEY. -/
@[simp] theorem State.beforeFetch_key : s.beforeFetch.key = s.afterInput.key :=
  (congrArg State.key s.beforeFetch_eq).trans rfl

end Sys2Proof.Machine
end

