-- ==== Sys2Proof/Laws/Exec.lean ====
section
/-! SUPPORT. What an instruction's execute step can do, said once, and the tick over it. -/

namespace Sys2Proof.Machine

/-! ## Fault or completion -/

/-- A skip takes `PcOutOfRange`, or moves PC, or does nothing (R110). -/
theorem State.skipIf_cases (s : State) (i : Instr) (c : Bool) :
    (s.skipIf i c = s.raise .pcOutOfRange (encode i) (s.pc.toNat + 2) ∧ c = true ∧ s.pc.toNat + 2 > 4095) ∨
    (s.skipIf i c = { s with pc := s.pc + 2 } ∧ c = true ∧ s.pc.toNat + 2 ≤ 4095) ∨
    (s.skipIf i c = s ∧ c = false) := by
  unfold State.skipIf State.skip
  cases c
  · exact .inr (.inr ⟨rfl, rfl⟩)
  · by_cases h : s.pc.toNat + 2 > 4095
    · exact .inl ⟨by simp [h], rfl, h⟩
    · exact .inr (.inl ⟨by simp [h], rfl, by omega⟩)

/-- A store from I on takes `MemoryOutOfRange` with info 4096 and stores nothing, or stores every byte and nothing
else (R143, R144). -/
theorem State.storeAtI_cases (s : State) (i : Instr) (bs : List Byte) :
    (s.storeAtI i bs = s.raise .memoryOutOfRange (encode i) 4096 ∧ s.i.toNat + bs.length > 4096) ∨
    (∃ m, s.storeAtI i bs = { s with mem := m } ∧ s.i.toNat + bs.length ≤ 4096 ∧ (s.mem.wf → m.wf) ∧
      ∀ x, m.peek x = if s.i.toNat ≤ x ∧ x < s.i.toNat + bs.length then bs.getD (x - s.i.toNat) 0
        else s.mem.peek x) := by
  have hi : s.i.toNat < 4096 := s.i.isLt
  unfold State.storeAtI
  by_cases h : s.i.toNat + bs.length ≤ 4096
  · obtain ⟨m, hm, hw, hp⟩ := s.mem.storeBytes_ok s.i.toNat bs h
    rw [hm]
    exact .inr ⟨m, rfl, h, hw, hp⟩
  · rw [s.mem.storeBytes_error s.i.toNat bs (Nat.le_of_lt hi) (Nat.lt_of_not_le h)]
    exact .inl ⟨rfl, by omega⟩

/-- An execute step takes a fault of its instruction, or completes with FAULT as it was, and with EXEC as it was
unless the instruction is FX0A. -/
theorem exec_fault_or_completes {i : Instr} {s t : State} (h : exec i s = .next t) :
    (∃ k n, t = s.raise k (encode i) n) ∨
    (t.fault = s.fault ∧ (t.exec = s.exec ∨ ∃ x, i = .ldVxK x ∧ t.exec = .waitingForKey x)) := by
  have skip (j : Instr) (c : Bool) (he : i = j) (ht : t = s.skipIf j c) :
      (∃ k n, t = s.raise k (encode i) n) ∨
      (t.fault = s.fault ∧ (t.exec = s.exec ∨ ∃ x, i = .ldVxK x ∧ t.exec = .waitingForKey x)) := by
    subst he ht
    rcases s.skipIf_cases i c with ⟨h, -⟩ | ⟨h, -⟩ | ⟨h, -⟩ <;> rw [h]
    · exact .inl ⟨_, _, rfl⟩
    · exact .inr ⟨rfl, .inl rfl⟩
    · exact .inr ⟨rfl, .inl rfl⟩
  have store (bs : List Byte) (ht : t = s.storeAtI i bs) :
      (∃ k n, t = s.raise k (encode i) n) ∨
      (t.fault = s.fault ∧ (t.exec = s.exec ∨ ∃ x, i = .ldVxK x ∧ t.exec = .waitingForKey x)) := by
    subst ht
    rcases s.storeAtI_cases i bs with ⟨h, -⟩ | ⟨m, h, -⟩ <;> rw [h]
    · exact .inl ⟨_, _, rfl⟩
    · exact .inr ⟨rfl, .inl rfl⟩
  cases i
  case ldVxK x => cases h; exact .inr ⟨rfl, .inr ⟨x, rfl, rfl⟩⟩
  case seByte x nn => exact skip _ _ rfl (by cases h; rfl)
  case sneByte x nn => exact skip _ _ rfl (by cases h; rfl)
  case seReg x y => exact skip _ _ rfl (by cases h; rfl)
  case sneReg x y => exact skip _ _ rfl (by cases h; rfl)
  case ldB x => exact store _ (by cases h; rfl)
  case storeRegs x => exact store _ (by cases h; rfl)
  case ret =>
    simp only [exec, execRet] at h
    split at h <;> cases h
    · exact .inl ⟨_, _, rfl⟩
    · exact .inr ⟨rfl, .inl rfl⟩
  case call nnn =>
    simp only [exec, execCall] at h
    split at h <;> cases h
    · exact .inl ⟨_, _, rfl⟩
    · exact .inr ⟨rfl, .inl rfl⟩
  case skp x =>
    simp only [exec, execSkp] at h
    split at h
    · cases h; exact .inl ⟨_, _, rfl⟩
    · exact skip _ _ rfl (by cases h; rfl)
  case sknp x =>
    simp only [exec, execSknp] at h
    split at h
    · cases h; exact .inl ⟨_, _, rfl⟩
    · exact skip _ _ rfl (by cases h; rfl)
  case drw x y n =>
    simp only [exec, execDrw] at h
    split at h <;> cases h
    · exact .inl ⟨_, _, rfl⟩
    · exact .inr ⟨rfl, .inl rfl⟩
  case loadRegs x =>
    simp only [exec, execLoadRegs] at h
    split at h <;> cases h
    · exact .inl ⟨_, _, rfl⟩
    · exact .inr ⟨rfl, .inl rfl⟩
  all_goals cases h; exact .inr ⟨rfl, .inl rfl⟩

/-! ## The tick over the execute step -/

/-- Phase 5's own faults, each with its condition and record: the two of the fetch name no word, the one of the
decoding names the word (R200, R203, R204, R214). -/
theorem State.fetchExecute_faults (s : State) :
    (s.pc.toNat = 4095 → s.fetchExecute = .next (s.raiseInFetch .memoryOutOfRange none 4096)) ∧
    (s.pc.toNat = 4094 → s.fetchExecute = .next (s.raiseInFetch .pcOutOfRange none 4096)) ∧
    (s.pc.toNat + 2 ≤ 4095 → decodeWord s.wordAtPc = none →
      s.fetchExecute = .next (s.raiseInFetch .unimplementedOpcode (some s.wordAtPc) s.wordAtPc.toNat)) := by
  unfold State.fetchExecute
  refine ⟨fun h => ?_, fun h => ?_, fun h hd => ?_⟩
  · rw [h]
    simp [Memory.read16, Memory.read8]
  · rw [s.mem.read16_ok (by omega), h]
    rfl
  · rw [s.mem.read16_ok (by omega)]
    simp only [if_neg (Nat.not_lt.2 h)]
    rw [show decodeWord (packWord (s.mem.peek s.pc.toNat) (s.mem.peek (s.pc.toNat + 1))) = none from hd]
    rfl

/-- A tick that reaches phase 5 takes a fault of the fetch or the decoding, or runs the instruction it `Executes`. -/
theorem step_executes {s t : State} (h : step s = .next t) :
    s.exec ≠ .stopped ∧
    ((.quit ∈ s.events ∧ t = { s.afterInput with exec := .stopped }) ∨
     (.quit ∉ s.events ∧ s.beforeFetch.exec ≠ .running ∧ t = s.beforeFetch.signalRedraw) ∨
     (.quit ∉ s.events ∧ s.beforeFetch.exec = .running ∧ ∃ k w n, t = s.beforeFetch.raiseInFetch k w n) ∨
     (∃ i u, s.Executes i ∧ exec i { s.beforeFetch with pc := s.pc + 2 } = .next u ∧ t = u.signalRedraw)) := by
  obtain ⟨hs, h | ⟨hq, ⟨hr, h⟩ | ⟨hr, u, hu, ht⟩⟩⟩ := step_cases h
  · exact ⟨hs, .inl h⟩
  · exact ⟨hs, .inr (.inl ⟨hq, hr, h⟩)⟩
  · refine ⟨hs, .inr (.inr ?_)⟩
    rcases s.beforeFetch.fetchExecute_cases with ⟨k, w, n, h⟩ | ⟨i, hpc, hd, h⟩
    · rw [h] at hu
      cases hu
      exact .inl ⟨hq, hr, k, w, n, by rw [ht, State.signalRedraw, if_pos]; rfl⟩
    · rw [h] at hu
      rw [State.beforeFetch_pc] at hpc hd hu
      rw [State.beforeFetch_mem] at hd
      exact .inr ⟨i, u, ⟨hq, hr, hpc, hd⟩, hu, ht⟩

/-- The step of a tick that executes `i` is `exec` of `i` and then phase 6. -/
theorem step_of_executes {s : State} {i : Instr} (h : s.Executes i) :
    ∃ u, exec i { s.beforeFetch with pc := s.pc + 2 } = .next u ∧ step s = .next u.signalRedraw := by
  obtain ⟨hq, hr, hpc, hd⟩ := h
  obtain ⟨u, hu⟩ := exec_next i { s.beforeFetch with pc := s.pc + 2 }
  refine ⟨u, hu, ?_⟩
  have hs : s.exec ≠ .stopped := by
    intro he
    rw [s.beforeFetch_of_not_waiting (by simp [he])] at hr
    simp [he] at hr
  have h1 : s.pc.toNat + 1 < 4096 := by
    omega
  have hf : s.beforeFetch.fetchExecute = .next u := by
    have e : s.beforeFetch.mem.read16 s.beforeFetch.pc.toNat = .ok s.wordAtPc := by
      rw [State.beforeFetch_pc, State.beforeFetch_mem, s.mem.read16_ok h1]
      rfl
    unfold State.fetchExecute
    rw [e]
    simp only [hd, State.beforeFetch_pc, if_neg (Nat.not_lt.2 hpc)]
    exact hu
  unfold step State.tick State.dispatch
  rw [if_neg hs, if_neg (by simpa using hq), if_pos hr, hf]

end Sys2Proof.Machine
end

