-- ==== Sys2Proof/Laws/PerInstr.lean ====
section
/-! SUPPORT. One lemma per instruction: its encoding lies in its own row of the decode map (30_encoding.md R74). -/

namespace Sys2Proof

theorem wordNNN_and_mask (c : Nibble) (nnn : Addr) : wordNNN c nnn &&& 0xF000 = wordNNN c 0 := by
  refine word_ext fun k hk => ?_
  rw [BitVec.getLsbD_and, getLsbD_wordNNN, getLsbD_wordNNN]
  interval_cases k <;> simp

theorem wordXNN_and_mask (c x : Nibble) (nn : Byte) : wordXNN c x nn &&& 0xF000 = wordNNN c 0 :=
  wordNNN_and_mask c _

theorem wordXNN_and_mask_fixed (c x : Nibble) (nn : Byte) : wordXNN c x nn &&& 0xF0FF = wordXNN c 0 nn := by
  refine word_ext fun k hk => ?_
  rw [BitVec.getLsbD_and, getLsbD_wordXNN, getLsbD_wordXNN]
  interval_cases k <;> simp

theorem wordXYN_and_mask (c x y n : Nibble) : wordXYN c x y n &&& 0xF000 = wordNNN c 0 :=
  wordNNN_and_mask c _

theorem wordXYN_and_mask_fixed (c x y n : Nibble) : wordXYN c x y n &&& 0xF00F = wordXYN c 0 0 n := by
  refine word_ext fun k hk => ?_
  rw [BitVec.getLsbD_and, getLsbD_wordXYN, getLsbD_wordXYN]
  interval_cases k <;> simp

namespace Laws.InRow

/-- The word of the instruction, masked, is its row's match (R74). -/
def Statement (i : Instr) : Prop := encode i &&& i.row.2 = i.row.1

theorem cls : Statement .cls := rfl
theorem ret : Statement .ret := rfl
theorem jp (nnn : Addr) : Statement (.jp nnn) := wordNNN_and_mask _ _
theorem call (nnn : Addr) : Statement (.call nnn) := wordNNN_and_mask _ _
theorem seByte (x : Nibble) (nn : Byte) : Statement (.seByte x nn) := wordXNN_and_mask _ _ _
theorem sneByte (x : Nibble) (nn : Byte) : Statement (.sneByte x nn) := wordXNN_and_mask _ _ _
theorem seReg (x y : Nibble) : Statement (.seReg x y) := wordXYN_and_mask_fixed _ _ _ _
theorem ldByte (x : Nibble) (nn : Byte) : Statement (.ldByte x nn) := wordXNN_and_mask _ _ _
theorem addByte (x : Nibble) (nn : Byte) : Statement (.addByte x nn) := wordXNN_and_mask _ _ _
theorem ldReg (x y : Nibble) : Statement (.ldReg x y) := wordXYN_and_mask_fixed _ _ _ _
theorem orReg (x y : Nibble) : Statement (.orReg x y) := wordXYN_and_mask_fixed _ _ _ _
theorem andReg (x y : Nibble) : Statement (.andReg x y) := wordXYN_and_mask_fixed _ _ _ _
theorem xorReg (x y : Nibble) : Statement (.xorReg x y) := wordXYN_and_mask_fixed _ _ _ _
theorem addReg (x y : Nibble) : Statement (.addReg x y) := wordXYN_and_mask_fixed _ _ _ _
theorem sub (x y : Nibble) : Statement (.sub x y) := wordXYN_and_mask_fixed _ _ _ _
theorem shr (x y : Nibble) : Statement (.shr x y) := wordXYN_and_mask_fixed _ _ _ _
theorem subn (x y : Nibble) : Statement (.subn x y) := wordXYN_and_mask_fixed _ _ _ _
theorem shl (x y : Nibble) : Statement (.shl x y) := wordXYN_and_mask_fixed _ _ _ _
theorem sneReg (x y : Nibble) : Statement (.sneReg x y) := wordXYN_and_mask_fixed _ _ _ _
theorem ldI (nnn : Addr) : Statement (.ldI nnn) := wordNNN_and_mask _ _
theorem jpV0 (nnn : Addr) : Statement (.jpV0 nnn) := wordNNN_and_mask _ _
theorem rnd (x : Nibble) (nn : Byte) : Statement (.rnd x nn) := wordXNN_and_mask _ _ _
theorem drw (x y n : Nibble) : Statement (.drw x y n) := wordXYN_and_mask _ _ _ _
theorem skp (x : Nibble) : Statement (.skp x) := wordXNN_and_mask_fixed _ _ _
theorem sknp (x : Nibble) : Statement (.sknp x) := wordXNN_and_mask_fixed _ _ _
theorem ldVxDt (x : Nibble) : Statement (.ldVxDt x) := wordXNN_and_mask_fixed _ _ _
theorem ldVxK (x : Nibble) : Statement (.ldVxK x) := wordXNN_and_mask_fixed _ _ _
theorem ldDtVx (x : Nibble) : Statement (.ldDtVx x) := wordXNN_and_mask_fixed _ _ _
theorem ldStVx (x : Nibble) : Statement (.ldStVx x) := wordXNN_and_mask_fixed _ _ _
theorem addI (x : Nibble) : Statement (.addI x) := wordXNN_and_mask_fixed _ _ _
theorem ldF (x : Nibble) : Statement (.ldF x) := wordXNN_and_mask_fixed _ _ _
theorem ldB (x : Nibble) : Statement (.ldB x) := wordXNN_and_mask_fixed _ _ _
theorem storeRegs (x : Nibble) : Statement (.storeRegs x) := wordXNN_and_mask_fixed _ _ _
theorem loadRegs (x : Nibble) : Statement (.loadRegs x) := wordXNN_and_mask_fixed _ _ _

end Laws.InRow

end Sys2Proof
end

