-- ==== Sys2Proof/Tests/Slice0.lean ====
section
/-! SUPPORT. Tests and witnesses. Every expected value comes from the spec: the words from its encodings (R71, R73,
R74), the results from the vectors of 95_test_vectors.md, whose number each test names. -/

namespace Sys2Proof.Tests

open Sys2Proof Sys2Proof.Machine

/-! ## Ill-formed words, class by class (R75, R76) -/

theorem test_class0_refused :
    wordRecognised 0x0000 = false ∧ wordRecognised 0x00E1 = false ∧ wordRecognised 0x0FFF = false ∧
    wordRecognised 0x00E0 = true ∧ wordRecognised 0x00EE = true := by decide

theorem test_class5_refused :
    wordRecognised 0x5121 = false ∧ wordRecognised 0x512F = false ∧ wordRecognised 0x5120 = true := by decide

theorem test_class8_refused :
    wordRecognised 0x8008 = false ∧ wordRecognised 0x800D = false ∧ wordRecognised 0x800F = false ∧
    wordRecognised 0x8007 = true ∧ wordRecognised 0x800E = true := by decide

theorem test_class9_refused :
    wordRecognised 0x912F = false ∧ wordRecognised 0x9121 = false ∧ wordRecognised 0x9120 = true := by decide

theorem test_classE_refused :
    wordRecognised 0xE59F = false ∧ wordRecognised 0xE5A0 = false ∧ wordRecognised 0xE59E = true ∧
    wordRecognised 0xE5A1 = true := by decide

theorem test_classF_refused :
    wordRecognised 0xFFFF = false ∧ wordRecognised 0xF20B = false ∧ wordRecognised 0xF20A = true ∧
    wordRecognised 0xF265 = true := by decide

/-- The decoder refuses the same words, by name. -/
theorem test_unrecognised_words_do_not_decode :
    decodeBytes [0x00, 0x00] = .error (.unrecognized 0x0000) ∧ decodeBytes [0x51, 0x21] = .error (.unrecognized 0x5121) ∧
    decodeBytes [0x80, 0x08] = .error (.unrecognized 0x8008) ∧ decodeBytes [0x91, 0x2F] = .error (.unrecognized 0x912F) ∧
    decodeBytes [0xE5, 0x9F] = .error (.unrecognized 0xE59F) ∧ decodeBytes [0xFF, 0xFF] = .error (.unrecognized 0xFFFF) ∧
    decodeBytes [0x12] = .error .truncated := by decide

/-! ## One word written out bit by bit for every constructor (R73, R74) -/

theorem test_decode_flow :
    decodeWord 0b0001001000110100#16 = some (.jp 0x234) ∧
    decodeWord 0b0010001100000000#16 = some (.call 0x300) ∧
    decodeWord 0b0000000011101110#16 = some .ret ∧
    decodeWord 0b1011111111111111#16 = some (.jpV0 0xFFF) := by decide

theorem test_decode_skips :
    decodeWord 0b0011000000001000#16 = some (.seByte 0 8) ∧
    decodeWord 0b0100001100000010#16 = some (.sneByte 3 2) ∧
    decodeWord 0b0101000100100000#16 = some (.seReg 1 2) ∧
    decodeWord 0b1001000100100000#16 = some (.sneReg 1 2) ∧
    decodeWord 0b1110010110011110#16 = some (.skp 5) ∧
    decodeWord 0b1110010110100001#16 = some (.sknp 5) := by decide

theorem test_decode_alu :
    decodeWord 0b0110101001000010#16 = some (.ldByte 0xA 0x42) ∧
    decodeWord 0b0111000011110000#16 = some (.addByte 0 0xF0) ∧
    decodeWord 0b1000000000010000#16 = some (.ldReg 0 1) ∧
    decodeWord 0b1000000000010001#16 = some (.orReg 0 1) ∧
    decodeWord 0b1000000000010010#16 = some (.andReg 0 1) ∧
    decodeWord 0b1000000000010011#16 = some (.xorReg 0 1) ∧
    decodeWord 0b1000111100010100#16 = some (.addReg 0xF 1) ∧
    decodeWord 0b1000000000010101#16 = some (.sub 0 1) ∧
    decodeWord 0b1000000000010110#16 = some (.shr 0 1) ∧
    decodeWord 0b1000000000010111#16 = some (.subn 0 1) ∧
    decodeWord 0b1000000000011110#16 = some (.shl 0 1) ∧
    decodeWord 0b1100001100001111#16 = some (.rnd 3 0x0F) := by decide

theorem test_decode_index_memory :
    decodeWord 0b1010001100000000#16 = some (.ldI 0x300) ∧
    decodeWord 0b1111001000011110#16 = some (.addI 2) ∧
    decodeWord 0b1111000000101001#16 = some (.ldF 0) ∧
    decodeWord 0b1111101000110011#16 = some (.ldB 0xA) ∧
    decodeWord 0b1111000101010101#16 = some (.storeRegs 1) ∧
    decodeWord 0b1111001001100101#16 = some (.loadRegs 2) := by decide

theorem test_decode_display_timer_keypad :
    decodeWord 0b0000000011100000#16 = some .cls ∧
    decodeWord 0b1101000000010101#16 = some (.drw 0 1 5) ∧
    decodeWord 0b1111000100000111#16 = some (.ldVxDt 1) ∧
    decodeWord 0b1111001000001010#16 = some (.ldVxK 2) ∧
    decodeWord 0b1111000000010101#16 = some (.ldDtVx 0) ∧
    decodeWord 0b1111000100011000#16 = some (.ldStVx 1) := by decide

/-- The byte at the lower address is the high byte of the word (R56), and decoding takes exactly two bytes (R70). -/
theorem test_decode_is_big_endian :
    decodeBytes [0x60, 0x05, 0x70] = .ok (.ldByte 0 5, [0x70]) ∧ decodeTableWord 16 0x6005 = some (.ldByte 0 5) := by
  decide

/-! ## Small states -/

/-- The state after reset with PC at `pc`, the word `w` there, and the tick's events `es`. -/
def place (pc : Addr) (w : Word) (es : List Event := []) : State :=
  { { State.reset with pc := pc }.withFetchWord 16 w.toNat with inputs := [es] }

/-- What one step leaves, seen through `f`. -/
def after {α : Type} (f : State → α) (s : State) : Option α :=
  match step s with
  | .next t => some (f t)
  | .fault _ => none
  | .refused _ => none

/-- A state with bytes put into its memory from `a` on. -/
def withBytes (s : State) (a : Nat) (bytes : List Byte) : State := { s with mem := s.mem.pokeAll a bytes }

/-- What a fault leaves visible: its kind and info, PC and EXEC. -/
def faultView (s : State) : Option (FaultKind × FaultInfo) × Addr × ExecState :=
  (s.fault.map (fun r => (r.kind, r.info)), s.pc, s.exec)

/-! ## Control transfer -/

/-- F1 and F3: the target may be odd. -/
theorem test_jp :
    after (·.pc) (place 0x200 0x1234) = some 0x234 ∧ after (·.pc) (place 0x200 0x1201) = some 0x201 := by decide

/-- F4. -/
theorem test_call :
    after (fun t => (t.sp, t.stackSlot 1, t.pc)) (place 0x200 0x2300) = some (1, 0x202, 0x300) := by decide

/-- F6. -/
theorem test_call_overflows :
    after faultView { place 0x300 0x2400 with sp := 15 } =
      some (some (.stackOverflow, .value 15), 0x300, .stopped) := by decide

/-- F7. -/
theorem test_ret :
    after (fun t => (t.sp, t.stackSlot 1, t.pc))
      { place 0x300 0x00EE with sp := 1, stack := (Vector.replicate 16 0).set 1 0x202 } = some (0, 0x202, 0x202) := by
  decide

/-- F8. -/
theorem test_ret_underflows :
    after faultView (place 0x200 0x00EE) = some (some (.stackUnderflow, .value 0), 0x200, .stopped) := by decide

/-- F9 and F10. -/
theorem test_jpV0 :
    after (·.pc) ((place 0x200 0xB300).setReg 0 0x10) = some 0x310 ∧
    after (·.pc) ((place 0x200 0xBFFF).setReg 0 0xFF) = some 0x0FE := by decide

/-! ## Skips -/

/-- S1 and S2. -/
theorem test_seByte :
    after (·.pc) ((place 0x200 0x3008).setReg 0 8) = some 0x204 ∧
    after (·.pc) ((place 0x200 0x3008).setReg 0 7) = some 0x202 := by decide

/-- S16 and S17. -/
theorem test_seByte_at_the_end :
    after faultView (place 0xFFC 0x3000) = some (some (.pcOutOfRange, .value 0x1000), 0xFFC, .stopped) ∧
    after (·.pc) ((place 0xFFC 0x3000).setReg 0 1) = some 0xFFE := by decide

/-- S3 and S4. -/
theorem test_sneByte :
    after (·.pc) ((place 0x200 0x4302).setReg 3 1) = some 0x204 ∧
    after (·.pc) ((place 0x200 0x4302).setReg 3 2) = some 0x202 := by decide

/-- S5 and S6. -/
theorem test_seReg :
    after (·.pc) (((place 0x200 0x5120).setReg 1 7).setReg 2 7) = some 0x204 ∧
    after (·.pc) ((place 0x200 0x5110).setReg 1 9) = some 0x204 := by decide

/-- S8 and S9. -/
theorem test_sneReg :
    after (·.pc) (((place 0x200 0x9120).setReg 1 7).setReg 2 8) = some 0x204 ∧
    after (·.pc) ((place 0x200 0x9110).setReg 1 9) = some 0x202 := by decide

/-- S11 and S12: the key is the state after this tick's events. -/
theorem test_skp :
    after (·.pc) ((place 0x300 0xE59E [.keyDown 0xA]).setReg 5 0xA) = some 0x304 ∧
    after (·.pc) ((place 0x300 0xE59E [.keyDown 0xA, .keyUp 0xA]).setReg 5 0xA) = some 0x302 := by decide

/-- S13. -/
theorem test_skp_key_out_of_range :
    after faultView ((place 0x300 0xE59E).setReg 5 0x10) =
      some (some (.keyOutOfRange, .value 0x10), 0x300, .stopped) := by decide

/-- S14 and S15. -/
theorem test_sknp :
    after (·.pc) ((place 0x300 0xE5A1).setReg 5 0xA) = some 0x304 ∧
    after (·.pc) (((place 0x300 0xE5A1).setKey 0xA true).setReg 5 0xA) = some 0x302 := by decide

/-! ## Register arithmetic -/

/-- V0 and VF. -/
def v0vf (s : State) : Byte × Byte := (s.reg 0, s.reg 15)

/-- A1 and A2. -/
theorem test_ldByte :
    after (·.reg 0xA) (place 0x200 0x6A42) = some 0x42 ∧ after (·.reg 0xF) (place 0x200 0x6FAA) = some 0xAA := by decide

/-- A3. -/
theorem test_addByte :
    after v0vf (((place 0x200 0x7001).setReg 0 0xFF).setReg 15 0x55) = some (0x00, 0x55) := by decide

/-- A5. -/
theorem test_ldReg : after (·.reg 0) ((place 0x200 0x8010).setReg 1 0x42) = some 0x42 := by decide

/-- A6. -/
theorem test_orReg :
    after v0vf ((((place 0x200 0x8011).setReg 0 0x0F).setReg 1 0xF0).setReg 15 0x55) = some (0xFF, 0x55) := by decide

/-- A7. -/
theorem test_andReg :
    after v0vf (((place 0x200 0x8012).setReg 0 0x3C).setReg 1 0x0F) = some (0x0C, 0) := by decide

/-- A8 and A9. -/
theorem test_xorReg :
    after v0vf (((place 0x200 0x8013).setReg 0 0xFF).setReg 1 0x0F) = some (0xF0, 0) ∧
    after v0vf (((place 0x200 0x8003).setReg 0 0x5A).setReg 15 0x55) = some (0x00, 0x55) := by decide

/-- A11 to A13, W1. -/
theorem test_addReg :
    after v0vf (((place 0x200 0x8014).setReg 0 0xFF).setReg 1 0x01) = some (0x00, 1) ∧
    after v0vf (((place 0x200 0x8014).setReg 0 0x7F).setReg 1 0x80) = some (0xFF, 0) ∧
    after v0vf (((place 0x200 0x8014).setReg 0 0xC8).setReg 1 0x64) = some (0x2C, 1) := by decide

/-- A14 and A15: the flag is written last, and a source VF is the value before. -/
theorem test_addReg_with_VF :
    after (·.reg 15) (((place 0x200 0x8F14).setReg 15 0x10).setReg 1 0xF5) = some 1 ∧
    after v0vf (((place 0x200 0x80F4).setReg 0 0x01).setReg 15 0xFF) = some (0x00, 1) := by decide

/-- A17 to A19. -/
theorem test_sub :
    after v0vf (((place 0x200 0x8015).setReg 0 8).setReg 1 3) = some (5, 1) ∧
    after v0vf (((place 0x200 0x8015).setReg 0 3).setReg 1 3) = some (0, 0) ∧
    after v0vf (((place 0x200 0x8015).setReg 0 1).setReg 1 2) = some (0xFF, 0) := by decide

/-- A21. -/
theorem test_sub_into_VF :
    after (·.reg 15) (((place 0x200 0x8F15).setReg 15 5).setReg 1 3) = some 1 := by decide

/-- A23 to A25. -/
theorem test_subn :
    after v0vf (((place 0x200 0x8017).setReg 0 3).setReg 1 8) = some (5, 1) ∧
    after v0vf (((place 0x200 0x8017).setReg 0 8).setReg 1 3) = some (0xFB, 0) ∧
    after v0vf (((place 0x200 0x8017).setReg 0 5).setReg 1 5) = some (0, 0) := by decide

/-- A26 and A27: the same under every VF_SHIFT_ALIAS, and Y is ignored. -/
theorem test_shr :
    (∃ t, exec (.shr 0 0) (State.reset.setReg 0 5) = .next t ∧ t.reg 0 = 2 ∧ t.reg 15 = 1) ∧
    (∃ t, exec (.shr 0 1) ((State.reset.setReg 0 4).setReg 1 0xFF) = .next t ∧ t.reg 0 = 2 ∧ t.reg 15 = 0) :=
  ⟨⟨_, rfl, (RegFile.get_shift _ _ _ _ _ (by decide)).trans (by decide),
      (RegFile.get_shift _ _ _ _ _ (by decide)).trans (by decide)⟩,
    ⟨_, rfl, (RegFile.get_shift _ _ _ _ _ (by decide)).trans (by decide),
      (RegFile.get_shift _ _ _ _ _ (by decide)).trans (by decide)⟩⟩

/-- A29, the three readings. -/
theorem test_shr_of_VF :
    RegFile.get (RegFile.shift (State.reset.setReg 15 5).v 15 lowBit (fun b => b >>> 1)) 15 =
      (match Config.vfShiftAlias with | .docOrder => 0 | .flagWins => 1 | .resultWins => 2) := by
  unfold RegFile.shift
  cases Config.vfShiftAlias <;> decide

/-- A30 and A31. -/
theorem test_shl :
    (∃ t, exec (.shl 0 0) (State.reset.setReg 0 0x81) = .next t ∧ t.reg 0 = 2 ∧ t.reg 15 = 1) ∧
    (∃ t, exec (.shl 0 0) (State.reset.setReg 0 0x40) = .next t ∧ t.reg 0 = 0x80 ∧ t.reg 15 = 0) :=
  ⟨⟨_, rfl, (RegFile.get_shift _ _ _ _ _ (by decide)).trans (by decide),
      (RegFile.get_shift _ _ _ _ _ (by decide)).trans (by decide)⟩,
    ⟨_, rfl, (RegFile.get_shift _ _ _ _ _ (by decide)).trans (by decide),
      (RegFile.get_shift _ _ _ _ _ (by decide)).trans (by decide)⟩⟩

/-- A33, the three readings. -/
theorem test_shl_of_VF :
    RegFile.get (RegFile.shift (State.reset.setReg 15 0xC0).v 15 highBit (fun b => b <<< 1)) 15 =
      (match Config.vfShiftAlias with | .docOrder => 2 | .flagWins => 1 | .resultWins => 0x80) := by
  unfold RegFile.shift
  cases Config.vfShiftAlias <;> decide

/-- A34 for any draw, and one draw is consumed. -/
theorem test_rnd :
    after (fun t => (t.reg 3, t.rndDraws)) (place 0x200 0xC30F) = some (Config.randomByte 0 &&& 0x0F, 1) := rfl

/-- A35: a zero mask consumes a draw too. -/
theorem test_rnd_consumes_a_draw : after (·.rndDraws) (place 0x200 0xC300) = some 1 := by decide

/-! ## Index register and memory transfer -/

/-- M1. -/
theorem test_ldI : after (·.i) (place 0x200 0xA300) = some 0x300 := by decide

/-- M2 and M3: I wraps, VF stays. -/
theorem test_addI :
    after (·.i) { (place 0x200 0xF21E).setReg 2 0x10 with i := 0x300 } = some 0x310 ∧
    after (fun t => (t.i, t.reg 15)) { (place 0x200 0xF21E).setReg 2 0x01 with i := 0xFFF } = some (0, 0) := by decide

/-- M5 to M7 and W6: the whole byte counts. -/
theorem test_ldF :
    after (·.i) ((place 0x200 0xF029).setReg 0 0x0A) = some 0x082 ∧
    after (·.i) ((place 0x200 0xF029).setReg 0 0x10) = some 0x0A0 ∧
    after (·.i) ((place 0x200 0xF029).setReg 0 0xFF) = some 0x54B := by decide

/-- Three bytes of memory from `a` on. -/
def bytes3 (a : Nat) (s : State) : Byte × Byte × Byte := (s.mem.peek a, s.mem.peek (a + 1), s.mem.peek (a + 2))

/-- M8, M10, M11. -/
theorem test_ldB :
    after (bytes3 0x300) { (place 0x200 0xF033).setReg 0 0x9C with i := 0x300 } = some (1, 5, 6) ∧
    after (bytes3 0x300) { (place 0x200 0xF033).setReg 0 0xFF with i := 0x300 } = some (2, 5, 5) ∧
    after (bytes3 0xFFD) { (place 0x200 0xF033).setReg 0 0x07 with i := 0xFFD } = some (0, 0, 7) := by decide

/-- M12: nothing is stored. -/
theorem test_ldB_past_the_end :
    after (fun t => (faultView t, t.mem)) { (place 0x200 0xF033).setReg 0 0x07 with i := 0xFFE } =
      some ((some (.memoryOutOfRange, .value 0x1000), 0x200, .stopped), (place 0x200 0xF033).mem) := by decide

/-- M13 and M14: I stays. -/
theorem test_storeRegs :
    after (fun t => (bytes3 0x300 t, t.i)) { ((place 0x200 0xF155).setReg 0 1).setReg 1 2 with i := 0x300 } =
      some ((1, 2, 0), 0x300) ∧
    after (·.mem.peek 0xFFF) { (place 0x200 0xF055).setReg 0 0xAB with i := 0xFFF } = some 0xAB := by decide

/-- M15: nothing is stored, not even the byte that would fit. -/
theorem test_storeRegs_past_the_end :
    after (fun t => (faultView t, t.mem.peek 0xFFF)) { (place 0x200 0xF155).setReg 0 9 with i := 0xFFF } =
      some ((some (.memoryOutOfRange, .value 0x1000), 0x200, .stopped), 0) := by decide

/-- M17. -/
theorem test_loadRegs :
    after (fun t => (t.reg 0, t.reg 1, t.reg 2, t.i)) { withBytes (place 0x200 0xF265) 0x300 [1, 5, 6] with i := 0x300 } =
      some (1, 5, 6, 0x300) := by decide

/-- M19 and M20: the boundary. -/
theorem test_loadRegs_boundary :
    after (fun t => (t.exec, t.reg 15)) { withBytes (place 0x200 0xFF65) 0xFFF [7] with i := 0xFF0 } =
      some (.running, 7) ∧
    after faultView { place 0x200 0xFF65 with i := 0xFF1 } =
      some (some (.memoryOutOfRange, .value 0x1000), 0x200, .stopped) := by decide

/-! ## Display -/

/-- A state with one pixel lit. -/
def withPixel (s : State) (x y : Nat) : State := { s with fb := s.fb.setPixel x y true }

/-- D1 and K5: presented once, and REDRAW is clear after the tick. -/
theorem test_cls :
    after (fun t => (t.fb.pixel 3 4, t.redraw, t.presents.length)) (withPixel (place 0x200 0x00E0) 3 4) =
      some (false, false, 1) := by decide

/-- D2: clipped at the right and the bottom edge. -/
theorem test_drw :
    after (fun t => (t.fb.pixel 62 31, t.fb.pixel 63 31, t.fb.pixel 0 31, t.fb.pixel 62 0, t.reg 15))
      { withBytes (((place 0x200 0xD011).setReg 0 62).setReg 1 31) 0x300 [0xFF] with i := 0x300 } =
      some (true, true, false, false, 0) := by decide

/-- D6 and D10: a collision, and VF as a coordinate is read before it is reset. -/
theorem test_drw_flag :
    after (fun t => (t.fb.pixel 0 0, t.reg 15)) { withBytes (withPixel (place 0x200 0xD011) 0 0) 0x300 [0x80] with i := 0x300 } =
      some (false, 1) ∧
    after (fun t => (t.fb.pixel 10 0, t.reg 15))
      { withBytes ((place 0x200 0xDF11).setReg 15 0x0A) 0x300 [0x80] with i := 0x300 } = some (true, 0) := by decide

/-- D8 and D9: only the rows that are drawn are read. -/
theorem test_drw_rows :
    after (fun t => (t.exec, t.fb.pixel 0 31)) { withBytes ((place 0x200 0xD015).setReg 1 30) 0xFFE [0x80, 0x80] with i := 0xFFE } =
      some (.running, true) ∧
    after faultView { (place 0x200 0xD015).setReg 1 29 with i := 0xFFE } =
      some (some (.memoryOutOfRange, .value 0x1000), 0x200, .stopped) := by decide

/-! ## Timers, keypad and the tick -/

/-- T2. -/
theorem test_ldVxDt :
    after (fun t => (t.dt, t.reg 1)) { place 0x200 0xF107 with dt := 3 } = some (2, 2) := by decide

/-- T1 and W7. -/
theorem test_ldDtVx :
    after (·.dt) ((place 0x200 0xF015).setReg 0 3) = some 3 ∧
    after (fun t => (t.dt, t.st)) { place 0x200 0x120C with dt := 1 } = some (0, 0) := by decide

/-- T4, its first tick. -/
theorem test_ldStVx : after (·.st) ((place 0x200 0xF118).setReg 1 1) = some 1 := by decide

/-- T5: the key-down of the tick that executes FX0A does not end the wait. -/
theorem test_ldVxK :
    after (fun t => (t.keyPressed 5, t.exec, t.reg 2)) (place 0x200 0xF20A [.keyDown 5]) =
      some (true, .waitingForKey 2, 0) := by decide

/-- T7 and T10: the wait ends, and the next instruction runs in the same tick. -/
theorem test_wait_ends :
    after (fun t => (t.reg 2, t.reg 3, t.exec)) { place 0x200 0x6301 [.keyDown 9] with exec := .waitingForKey 2 } =
      some (9, 1, .running) ∧
    after (fun t => (t.reg 2, t.keyPressed 6))
      { place 0x200 0x6301 [.keyDown 6, .keyUp 6] with exec := .waitingForKey 2 } = some (6, false) := by decide

/-- T8: the key-downs among which the wait chooses, each once. -/
theorem test_key_downs : keyDowns [.keyDown 9, .keyUp 3, .keyDown 3, .keyDown 9] = [3, 9] := by decide

/-- T6 and T9: no instruction runs, the timers count, a held key does not end the wait. -/
theorem test_still_waiting :
    after (fun t => (t.dt, t.pc, t.exec)) { (place 0x200 0x6301).setKey 4 true with dt := 5, exec := .waitingForKey 2 } =
      some (4, 0x200, .waitingForKey 2) := by decide

/-- T11, K4 and K6: Quit. -/
theorem test_quit :
    after (fun t => (t.exec, t.fault, t.reg 2)) { place 0x200 0x6301 [.quit] with exec := .waitingForKey 2 } =
      some (.stopped, none, 0) ∧
    after (fun t => (t.dt, t.keyPressed 1, t.fb.pixel 0 0, t.exitStatus))
      { withPixel (place 0x200 0x00E0 [.keyDown 1, .quit]) 0 0 with dt := 2 } =
      some (1, true, true, some .zero) := by decide

/-- K1 and K2. -/
theorem test_fetch_faults :
    after faultView (place 0x208 0x0000) = some (some (.unimplementedOpcode, .value 0), 0x208, .stopped) ∧
    after faultView (place 0xFFF 0x0000) = some (some (.memoryOutOfRange, .value 0x1000), 0xFFF, .stopped) := by decide

/-- K3 and A37. -/
theorem test_advance_and_decode_faults :
    after faultView (place 0xFFE 0x1200) = some (some (.pcOutOfRange, .value 0x1000), 0xFFE, .stopped) ∧
    after faultView (place 0x200 0x8008) = some (some (.unimplementedOpcode, .value 0x8008), 0x200, .stopped) := by decide

/-- R203: a fault of the fetch, its advance of PC included, records no word; one of the decoding records the word. -/
theorem test_word_of_fetch_faults :
    after (fun t => t.fault.map (·.word)) (place 0xFFF 0x0000) = some (some none) ∧
    after (fun t => t.fault.map (·.word)) (place 0xFFE 0x1200) = some (some none) ∧
    after (fun t => t.fault.map (·.word)) (place 0x200 0x8008) = some (some (some 0x8008)) := by decide

/-- K9 and the end of W8: reset with no program fetches the word 0 from 0x200. -/
theorem test_reset_without_a_program :
    after faultView State.reset = some (some (.unimplementedOpcode, .value 0), 0x200, .stopped) := by decide

/-- The codes of R200. -/
theorem test_fault_codes :
    [FaultKind.capacityExceeded, .unimplementedOpcode, .stackOverflow, .stackUnderflow, .memoryOutOfRange,
      .pcOutOfRange, .keyOutOfRange].map FaultKind.code = [1, 2, 3, 4, 5, 6, 7] := by decide

/-! ## Witnesses: each statement's hypotheses are met, clause by clause -/

theorem test_witness_EncodeOfDecode : decodeWord 0xD015#16 = some (.drw 0 1 5) ∧ decodeWord 0x5121#16 = none := by decide

theorem test_witness_CallPushesReturnAddress :
    { State.reset with sp := 14 }.sp ≠ 15 ∧ { State.reset with sp := 15 }.sp = 15 := by decide

theorem test_witness_ReturnPopsReturnAddress :
    { State.reset with sp := 15 }.sp ≠ 0 ∧ State.reset.sp = 0 := by decide

theorem test_witness_ReturnUndoesCall :
    ∃ s t u, s.sp ≠ 15 ∧ exec (.call 0x300) s = .next t ∧ u.sp = t.sp ∧ u.stack = t.stack ∧ u ≠ t :=
  ⟨State.reset, _, { State.reset with sp := 1, stack := (Vector.replicate 16 0).set 1 0x200, dt := 9 }, by decide, rfl,
    by decide⟩

/-- Each comparison holds and fails, at the last PC where a skip fits and at the first where it does not. -/
theorem test_witness_CompareSkips :
    let s := (State.reset.setReg 1 7).setReg 2 8
    s.reg 1 = 7 ∧ s.reg 1 ≠ 8 ∧ s.reg 1 = s.reg 1 ∧ s.reg 1 ≠ s.reg 2 ∧
    { s with pc := 4093 }.pc.toNat + 2 ≤ 4095 ∧ { s with pc := 4094 }.pc.toNat + 2 > 4095 := by decide

theorem test_witness_KeySkips :
    let s := ((State.reset.setReg 0 16).setReg 1 15).setKey 15 true
    (s.reg 0).toNat > 15 ∧ (s.reg 1).toNat = (15 : Nibble).toNat ∧ s.keyPressed 15 = true ∧
    (s.reg 2).toNat = (0 : Nibble).toNat ∧ s.keyPressed 0 = false := by decide

theorem test_witness_ShiftRight_ShiftLeft : (14 : Nibble) ≠ flagReg ∧ (15 : Nibble) = flagReg := by decide

theorem test_witness_BcdStoresDigits :
    { State.reset with i := 4093 }.i.toNat + 2 ≤ 4095 ∧ { State.reset with i := 4094 }.i.toNat + 2 > 4095 := by decide

/-- Also for LoadRegisterRange. -/
theorem test_witness_StoreRegisterRange :
    let s := { State.reset with i := 4080 }
    s.i.toNat + (15 : Nibble).toNat ≤ 4095 ∧ { s with i := 4081 }.i.toNat + (15 : Nibble).toNat > 4095 := by decide

theorem test_witness_DrawSprite :
    let s := { State.reset.setReg 1 31 with i := 4095 }
    spriteInMemory s.i.toNat (min (5 : Nibble).toNat (32 - (s.reg 1).toNat % 32)) ∧
    ¬ spriteInMemory s.i.toNat (min (2 : Nibble).toNat (32 - (s.reg 0).toNat % 32)) ∧
    spriteInMemory s.i.toNat (min (0 : Nibble).toNat (32 - (s.reg 0).toNat % 32)) := by decide

/-- A lit pixel under a set sprite bit, and none. -/
theorem test_witness_DrawSprite_collision :
    let s := withBytes (withPixel { State.reset with i := 0x300 } 0 0) 0x300 [0x80]
    (inSprite 0 0 1 0 0 ∧ spriteBit s.mem 0x300 0 0 0 0 = true ∧ s.fb.pixel 0 0 = true) ∧
    ¬ spriteBit (withBytes s 0x300 [0x40]).mem 0x300 0 0 0 0 = true := by decide

/-- Drawing with V0 and V0, then again from the state the first draw leaves. -/
theorem test_witness_DrawTwiceRestores :
    let s := withBytes { State.reset with i := 0x300 } 0x300 [0xF0]
    spriteInMemory s.i.toNat (min (1 : Nibble).toNat (32 - (s.reg 0).toNat % 32)) ∧
    ∃ t, exec (.drw 0 0 1) s = .next t ∧ t.mem = s.mem ∧ t.i = s.i ∧ (t.reg 0).toNat % 64 = (s.reg 0).toNat % 64 ∧
      (t.reg 0).toNat % 32 = (s.reg 0).toNat % 32 := by
  refine ⟨by decide, _, rfl, by decide, by decide, by decide, by decide⟩

theorem test_witness_KeyWaitOutlastsItsOwnTick :
    (place 0x200 0xF20A [.keyDown 5]).Executes (.ldVxK 2) ∧ ∃ t, step (place 0x200 0xF20A [.keyDown 5]) = .next t :=
  ⟨by decide, _, rfl⟩

/-- A Running tick, and one that ends a wait. -/
theorem test_witness_StepRunsDecodedInstruction :
    (place 0x200 0x6301).Executes (.ldByte 3 1) ∧ (place 0x200 0x6301).exec = .running ∧
    { place 0xFFD 0x6301 [.keyDown 9] with exec := .waitingForKey 2 }.Executes (.ldByte 3 1) := by decide

theorem test_witness_UnrecognisedWordFaults :
    (place 0xFFD 0xFFFF).exec = .running ∧ .quit ∉ (place 0xFFD 0xFFFF).events ∧
    (place 0xFFD 0xFFFF).pc.toNat + 2 ≤ 4095 ∧ decodeWord (place 0xFFD 0xFFFF).wordAtPc = none := by decide

theorem test_witness_FetchPastTheEndFaults :
    (place 0xFFE 0x1200).exec = .running ∧ .quit ∉ (place 0xFFE 0x1200).events ∧ (place 0xFFE 0x1200).pc.toNat = 4094 ∧
    (place 0xFFF 0x0000).exec = .running ∧ .quit ∉ (place 0xFFF 0x0000).events ∧
    (place 0xFFF 0x0000).pc.toNat = 4095 := by decide

/-- Ticks that count a nonzero timer down and leave a zero one, and ones that run FX15 and FX18. -/
theorem test_witness_TimersCountDown :
    (∃ t, step { place 0x200 0x1200 with dt := 3 } = .next t) ∧
    (place 0x200 0xF015).Executes (.ldDtVx 0) ∧ (∃ t, step (place 0x200 0xF015) = .next t) ∧
    (place 0x200 0xF018).Executes (.ldStVx 0) ∧ (∃ t, step (place 0x200 0xF018) = .next t) :=
  ⟨⟨_, rfl⟩, by decide, ⟨_, rfl⟩, by decide, ⟨_, rfl⟩⟩

/-- Also for RunEndsByQuitOrFault, whose other hypothesis is that no fault is recorded. -/
theorem test_witness_InputSynchronisation :
    (∃ t, step (place 0x200 0x1200 [.keyDown 1, .keyUp 1]) = .next t) ∧
    .quit ∈ (place 0x200 0x1200 [.keyDown 1, .quit]).events ∧
    (∃ t, step (place 0x200 0x1200 [.keyDown 1, .quit]) = .next t) ∧ (place 0x200 0x1200).fault = none :=
  ⟨⟨_, rfl⟩, by decide, ⟨_, rfl⟩, rfl⟩

theorem test_witness_WaitCompletes :
    let s := { place 0x200 0x6301 [.keyDown 3, .keyDown 9] with exec := .waitingForKey 2 }
    let s' := { place 0x200 0x6301 [.keyUp 3] with exec := .waitingForKey 2 }
    s.exec = .waitingForKey 2 ∧ .quit ∉ s.events ∧ .keyDown 3 ∈ s.events ∧
    s'.exec = .waitingForKey 2 ∧ .quit ∉ s'.events ∧ ¬ ∃ k, .keyDown k ∈ s'.events := by decide

theorem test_witness_BlockedTickRunsNothing :
    let s := { place 0x200 0x6301 [.keyUp 3] with exec := .waitingForKey 2 }
    (∃ d, s.exec = .waitingForKey d) ∧ (¬ ∃ k, .keyDown k ∈ s.events) ∧ .quit ∉ s.events ∧
    { place 0x200 0x6301 [.keyDown 3] with exec := .paused }.exec = .paused ∧
    .quit ∉ { place 0x200 0x6301 [.keyDown 3] with exec := .paused }.events :=
  ⟨⟨2, rfl⟩, by decide⟩

/-- A tick that draws, one with a pending redraw, one with neither, and one that stops. -/
theorem test_witness_RedrawSignalling :
    (place 0x200 0xD010).Executes (.drw 0 1 0) ∧ (∃ t, step (place 0x200 0xD010) = .next t ∧ t.exec ≠ .stopped) ∧
    (∃ t, step { place 0x200 0x1200 with redraw := true } = .next t ∧ t.exec ≠ .stopped) ∧
    (∃ t, step (place 0x200 0x1200) = .next t ∧ t.exec ≠ .stopped) ∧ (place 0x200 0x1200).redraw = false ∧
    (∃ t, step (place 0x200 0xFFFF) = .next t ∧ t.exec = .stopped) :=
  ⟨by decide, ⟨_, rfl, by decide⟩, ⟨_, rfl, by decide⟩, ⟨_, rfl, by decide⟩, rfl, ⟨_, rfl, by decide⟩⟩

/-- Every way EXEC changes. -/
theorem test_witness_ExecTransitions :
    (∃ t, step (place 0x200 0xF20A) = .next t ∧ t.exec = .waitingForKey 2) ∧
    (∃ t, step { place 0x200 0x6301 [.keyDown 9] with exec := .waitingForKey 2 } = .next t ∧ t.exec = .running) ∧
    (∃ t, step { place 0x200 0x6301 [.quit] with exec := .paused } = .next t ∧ t.exec = .stopped) ∧
    (∃ t, step (place 0x200 0xFFFF) = .next t ∧ t.exec = .stopped) :=
  ⟨⟨_, rfl, by decide⟩, ⟨_, rfl, by decide⟩, ⟨_, rfl, by decide⟩, ⟨_, rfl, by decide⟩⟩

/-- A stopped state, reached in one tick. -/
theorem test_witness_StoppedIsTerminal :
    ∃ u s, Host.Core.run core 1 u = .next s ∧ s.exec = .stopped :=
  ⟨place 0x200 0x1200 [.quit], _, rfl, by decide⟩

/-- A step that sets a fault record, from each of the events of OnlyListedEventsFault. -/
theorem test_witness_FaultsArePrecise :
    (∃ t r, step (place 0xFFF 0x0000) = .next t ∧ t.fault ≠ (place 0xFFF 0x0000).fault ∧ t.fault = some r) ∧
    (∃ t r, step (place 0xFFE 0x1200) = .next t ∧ t.fault ≠ (place 0xFFE 0x1200).fault ∧ t.fault = some r) ∧
    (∃ t r, step (place 0x200 0xFFFF) = .next t ∧ t.fault ≠ (place 0x200 0xFFFF).fault ∧ t.fault = some r) ∧
    (∃ t r, step (place 0x200 0x00EE) = .next t ∧ t.fault ≠ (place 0x200 0x00EE).fault ∧ t.fault = some r) :=
  ⟨⟨_, _, rfl, by decide, rfl⟩, ⟨_, _, rfl, by decide, rfl⟩, ⟨_, _, rfl, by decide, rfl⟩, ⟨_, _, rfl, by decide, rfl⟩⟩

theorem test_witness_StepKeepsInvariant :
    (place 0x200 0x6005).Inv ∧ ∃ t, step (place 0x200 0x6005) = .next t :=
  ⟨⟨by decide, (fun _ h => nomatch h), fun _ => rfl⟩, _, rfl⟩

/-- A call and a return. -/
theorem test_witness_StackDiscipline :
    (∃ t, step (place 0x200 0x2300) = .next t ∧ t.stackSlot 1 ≠ (place 0x200 0x2300).stackSlot 1) ∧
    (∃ t, step { place 0x200 0x00EE with sp := 1 } = .next t ∧ t.sp ≠ 1) :=
  ⟨⟨_, rfl, by decide⟩, ⟨_, rfl, by decide⟩⟩

theorem test_witness_RegistersWrittenAsListed :
    ∃ t, exec (.addReg 0 1) State.reset = .next t ∧ (2 : Nibble) ∉ (Instr.addReg 0 1).destRegs ∧
      ¬ ((Instr.addReg 0 1).writesFlag = true ∧ (2 : Nibble) = flagReg) :=
  ⟨_, rfl, by decide⟩

/-- The addresses next to the three bytes that FX33 stores. -/
theorem test_witness_MemoryWrittenAsListed :
    ∃ t, exec (.ldB 0) { State.reset with i := 0x300 } = .next t ∧
      ¬ (0x300 ≤ 0x2FF ∧ 0x2FF < 0x300 + (Instr.ldB 0).storeLength) ∧
      ¬ (0x300 ≤ 0x303 ∧ 0x303 < 0x300 + (Instr.ldB 0).storeLength) :=
  ⟨_, rfl, by decide⟩

/-- Instructions that change I, DT, ST, the framebuffer, REDRAW, EXEC and FAULT. -/
theorem test_witness_OtherStateWrittenAsListed :
    let s := withPixel (State.reset.setReg 0 7) 0 0
    (∃ t, exec (.ldI 0x300) s = .next t ∧ t.i ≠ s.i) ∧ (∃ t, exec (.ldDtVx 0) s = .next t ∧ t.dt ≠ s.dt) ∧
    (∃ t, exec (.ldStVx 0) s = .next t ∧ t.st ≠ s.st) ∧
    (∃ t, exec .cls s = .next t ∧ t.fb ≠ s.fb ∧ t.redraw ≠ s.redraw) ∧
    (∃ t, exec .ret s = .next t ∧ t.fault ≠ s.fault ∧ t.exec ≠ s.exec) ∧
    (∃ t, exec (.ldVxK 0) s = .next t ∧ t.exec ≠ s.exec) :=
  ⟨⟨_, rfl, by decide⟩, ⟨_, rfl, by decide⟩, ⟨_, rfl, by decide⟩, ⟨_, rfl, by decide⟩, ⟨_, rfl, by decide⟩, ⟨_, rfl, by decide⟩⟩

/-- FX55 stores the word 0x6005 where the next tick fetches. -/
theorem test_witness_StoredBytesAreFetchedNext :
    let s := { ((place 0x200 0xF155).setReg 0 0x60).setReg 1 0x05 with i := 0x202 }
    s.Executes (.storeRegs 1) ∧ s.i.toNat = s.pc.toNat + 2 ∧ s.pc.toNat + 4 ≤ 4095 ∧
    decodeWord (packWord (s.beforeFetch.reg 0) (s.beforeFetch.reg 1)) = some (.ldByte 0 5) ∧
    s.i.toNat + (1 : Nibble).toNat ≤ 4095 ∧ ∃ t, step s = .next t ∧ .quit ∉ t.events :=
  ⟨by decide, by decide, by decide, by decide, by decide, _, rfl, by decide⟩

/-- FX15 and then FX07. -/
theorem test_witness_DelayTimerReadBackOneLess :
    let s := withBytes ((place 0x200 0xF015).setReg 0 9) 0x202 [0xF1, 0x07]
    s.Executes (.ldDtVx 0) ∧ ∃ t, step s = .next t ∧ t.Executes (.ldVxDt 1) ∧ ∃ u, step t = .next u :=
  ⟨by decide, _, rfl, by decide, _, rfl⟩

/-- The last byte of memory and the first address past it. -/
theorem test_witness_ByteAccess :
    Memory.write8 [] 4095 7 = .ok [(4095, 7)] ∧ Memory.read8 [] 4096 = .error 4096 := by decide

theorem test_witness_WordReadIsBigEndian :
    Memory.read16 [(0xFFE, 0x12), (0xFFF, 0x34)] 4094 = .ok 0x1234 ∧ (4094 : Nat) + 1 < 4096 := by decide

/-- The bound is `≥`: a byte at 4094 is the last that a bulk write may put. -/
theorem test_witness_BulkWrite :
    Memory.writeBytes [] [1, 2] 4093 = some [(4093, 1), (4094, 2)] ∧ Memory.writeBytes [] [1, 2] 4094 = none := by decide

/-- K7: the longest ROM that loads. -/
theorem test_witness_ResetValues : (List.replicate 3583 (1 : Byte)).length < 3584 := by
  rw [List.length_replicate]; decide

/-- K8: the shortest ROM that does not. -/
theorem test_witness_OversizedRomIsRejected : (List.replicate 3584 (1 : Byte)).length ≥ 3584 := by
  rw [List.length_replicate]

end Sys2Proof.Tests
end

/-! ## Who writes which state (10_state.md R22 to R40)

`Effect` says once what an instruction's execute step can do to the state; the statements of 10_state.md follow from it
by its cases. -/

namespace Sys2Proof

/-- The table of R23 does not list register `r` for the instruction, neither as a destination nor as the flag. -/
def Instr.LeavesReg (i : Instr) (r : Nibble) : Prop := r ∉ i.destRegs ∧ ¬ (i.writesFlag = true ∧ r = flagReg)

/-- The register is not the one destination of the instruction. -/
theorem Instr.LeavesReg.ne {i : Instr} {r x : Nibble} (h : i.LeavesReg r) (hx : i.destRegs = [x]) : r ≠ x := by
  simpa [hx] using h.1

/-- The register is not VF where the instruction writes the flag. -/
theorem Instr.LeavesReg.ne_flagReg {i : Instr} {r : Nibble} (h : i.LeavesReg r) (hf : i.writesFlag = true) :
    r ≠ flagReg :=
  fun e => h.2 ⟨hf, e⟩

/-- The registers FX65 leaves are those above x. -/
theorem Instr.LeavesReg.lt_of_loadRegs {r x : Nibble} (h : (Instr.loadRegs x).LeavesReg r) : x.toNat < r.toNat := by
  by_contra hle
  exact h.1 (List.mem_map.2 ⟨r.toNat, List.mem_range.2 (by omega), by simp⟩)

end Sys2Proof

namespace Sys2Proof.Machine

/-! ### Registers that an operation on the register file leaves alone -/

theorem RegFile.get_set_of_ne (v : RegFile) {r q : Nibble} (b : Byte) (h : q ≠ r) :
    RegFile.get (RegFile.set v r b) q = RegFile.get v q := by
  rw [RegFile.get_set, if_neg h]

theorem RegFile.get_setWithFlag_of_ne (v : RegFile) {x q : Nibble} (result flag : Byte) (hx : q ≠ x)
    (hf : q ≠ flagReg) : RegFile.get (RegFile.setWithFlag v x result flag) q = RegFile.get v q := by
  rw [RegFile.get_setWithFlag, if_neg hf, if_neg hx]

/-- Under each of the three readings, x = 15 included, a shift writes V[x] and VF only (R129, R131). -/
theorem RegFile.get_shift_of_ne (v : RegFile) {x q : Nibble} (flag result : Byte → Byte) (hx : q ≠ x)
    (hf : q ≠ flagReg) : RegFile.get (RegFile.shift v x flag result) q = RegFile.get v q := by
  unfold RegFile.shift
  cases Config.vfShiftAlias <;> simp only [RegFile.get_set, if_neg hx, if_neg hf]

theorem RegFile.get_setFrom_zero_of_le (v : RegFile) {q : Nibble} (bs : List Byte) (hbs : bs.length ≤ 16)
    (h : bs.length ≤ q.toNat) : RegFile.get (RegFile.setFrom v 0 bs) q = RegFile.get v q := by
  rw [RegFile.get_setFrom _ _ _ _ (by simpa using hbs), if_neg (by simp [h])]

theorem Memory.length_readBytes {m : Memory} {a n : Nat} {bs : List Byte} (h : m.readBytes a n = .ok bs) :
    bs.length = n := by
  induction n generalizing a bs with
  | zero => cases h; rfl
  | succ n ih =>
    rw [Memory.readBytes] at h
    split at h
    · cases h
    · split at h
      · cases h
      · next hbs => cases h; rw [List.length_cons, ih hbs]

/-! ### The effects of an execute step -/

/-- What the execute step of `i` can leave from the state `s`, by the part of the state that it writes. -/
inductive Effect (i : Instr) (s : State) : State → Prop
  /-- a fault of the instruction (R201 to R203) -/
  | fault (k : FaultKind) (n : Nat) : Effect i s (s.raise k (encode i) n)
  /-- a jump, a skip, or a skip not taken -/
  | setPc (pc : Addr) : Effect i s { s with pc := pc }
  /-- a call that finds a free slot (R101) -/
  | call (nnn : Addr) (hi : i = .call nnn) (hsp : s.sp ≠ 15) :
    Effect i s { s with sp := s.sp + 1, stack := s.stack.set (s.sp + 1).toNat s.pc, pc := nnn }
  /-- a return that finds a call (R102) -/
  | ret (hi : i = .ret) (hsp : s.sp ≠ 0) : Effect i s { s with pc := s.stackSlot s.sp, sp := s.sp - 1 }
  /-- registers of the instruction's list, with a random byte drawn or not -/
  | setRegs (v : RegFile) (draws : Nat) (hv : ∀ r, i.LeavesReg r → RegFile.get v r = s.reg r) :
    Effect i s { s with v := v, rndDraws := draws }
  /-- the index register (R26) -/
  | setI (a : Addr) (hi : (∃ nnn, i = .ldI nnn) ∨ ∃ x, i = .addI x ∨ i = .ldF x) : Effect i s { s with i := a }
  /-- the bytes from address I on that the table of R58 lists -/
  | store (m : Memory) (hwf : s.mem.wf → m.wf)
      (hm : ∀ a, ¬ (s.i.toNat ≤ a ∧ a < s.i.toNat + i.storeLength) → m.peek a = s.mem.peek a) :
    Effect i s { s with mem := m }
  /-- the delay timer (R29) -/
  | setDt (b : Byte) (hi : ∃ x, i = .ldDtVx x) : Effect i s { s with dt := b }
  /-- the sound timer (R30) -/
  | setSt (b : Byte) (hi : ∃ x, i = .ldStVx x) : Effect i s { s with st := b }
  /-- the framebuffer, and VF for a sprite (R32, R33) -/
  | draw (v : RegFile) (fb : Framebuffer) (hi : i = .cls ∨ ∃ x y n, i = .drw x y n)
      (hv : ∀ r, i.LeavesReg r → RegFile.get v r = s.reg r) :
    Effect i s { s with v := v, fb := fb, redraw := true }
  /-- the wait for a key (R161) -/
  | wait (x : Nibble) (hi : i = .ldVxK x) : Effect i s { s with exec := .waitingForKey x }

theorem Effect.skipIf (i : Instr) (s : State) (c : Bool) : Effect i s (s.skipIf i c) := by
  rcases s.skipIf_cases i c with ⟨h, -⟩ | ⟨h, -⟩ | ⟨h, -⟩ <;> rw [h]
  · exact .fault _ _
  · exact .setPc _
  · exact .setPc s.pc

theorem Effect.storeAtI (i : Instr) (s : State) (bs : List Byte) (hlen : bs.length = i.storeLength) :
    Effect i s (s.storeAtI i bs) := by
  rcases s.storeAtI_cases i bs with ⟨h, -⟩ | ⟨m, h, -, hwf, hm⟩ <;> rw [h]
  · exact .fault _ _
  · exact .store m hwf fun a ha => by rw [hm, hlen, if_neg ha]

/-- An instruction that writes `V[x]` alone. -/
theorem Effect.setReg {i : Instr} (s : State) {x : Nibble} (b : Byte) (draws : Nat) (hx : i.destRegs = [x]) :
    Effect i s { s with v := RegFile.set s.v x b, rndDraws := draws } :=
  .setRegs _ _ fun _ hr => RegFile.get_set_of_ne _ _ (hr.ne hx)

/-- An instruction that writes `V[x]` and then VF as a flag. -/
theorem Effect.setWithFlag {i : Instr} (s : State) {x : Nibble} (result flag : Byte) (hx : i.destRegs = [x])
    (hf : i.writesFlag = true) : Effect i s { s with v := RegFile.setWithFlag s.v x result flag } :=
  .setRegs _ s.rndDraws fun _ hr => RegFile.get_setWithFlag_of_ne _ _ _ (hr.ne hx) (hr.ne_flagReg hf)

/-- A shift of `V[x]`. -/
theorem Effect.shift {i : Instr} (s : State) {x : Nibble} (flag result : Byte → Byte) (hx : i.destRegs = [x])
    (hf : i.writesFlag = true) : Effect i s { s with v := RegFile.shift s.v x flag result } :=
  .setRegs _ s.rndDraws fun _ hr => RegFile.get_shift_of_ne _ _ _ (hr.ne hx) (hr.ne_flagReg hf)

/-- Every execute step has one of the effects. -/
theorem exec_effect {i : Instr} {s t : State} (h : exec i s = .next t) : Effect i s t := by
  cases i
  case cls => cases h; exact .draw s.v _ (.inl rfl) fun _ _ => rfl
  case ret =>
    simp only [exec, execRet] at h
    split at h <;> cases h
    · exact .fault _ _
    · next hsp => exact .ret rfl hsp
  case jp nnn => cases h; exact .setPc _
  case call nnn =>
    simp only [exec, execCall] at h
    split at h <;> cases h
    · exact .fault _ _
    · next hsp => exact .call nnn rfl hsp
  case seByte x nn => cases h; exact .skipIf _ _ _
  case sneByte x nn => cases h; exact .skipIf _ _ _
  case seReg x y => cases h; exact .skipIf _ _ _
  case ldByte x nn => cases h; exact .setReg s _ s.rndDraws rfl
  case addByte x nn => cases h; exact .setReg s _ s.rndDraws rfl
  case ldReg x y => cases h; exact .setReg s _ s.rndDraws rfl
  case orReg x y => cases h; exact .setReg s _ s.rndDraws rfl
  case andReg x y => cases h; exact .setReg s _ s.rndDraws rfl
  case xorReg x y => cases h; exact .setReg s _ s.rndDraws rfl
  case addReg x y => cases h; exact .setWithFlag s _ _ rfl rfl
  case sub x y => cases h; exact .setWithFlag s _ _ rfl rfl
  case shr x y => cases h; exact .shift s _ _ rfl rfl
  case subn x y => cases h; exact .setWithFlag s _ _ rfl rfl
  case shl x y => cases h; exact .shift s _ _ rfl rfl
  case sneReg x y => cases h; exact .skipIf _ _ _
  case ldI nnn => cases h; exact .setI _ (.inl ⟨_, rfl⟩)
  case jpV0 nnn => cases h; exact .setPc _
  case rnd x nn => cases h; exact .setReg s _ _ rfl
  case drw x y n =>
    simp only [exec, execDrw] at h
    split at h <;> cases h
    · exact .fault _ _
    · exact .draw _ _ (.inr ⟨x, y, n, rfl⟩) fun _ hr => RegFile.get_set_of_ne _ _ (hr.ne_flagReg rfl)
  case skp x =>
    simp only [exec, execSkp] at h
    split at h <;> cases h
    · exact .fault _ _
    · exact .skipIf _ _ _
  case sknp x =>
    simp only [exec, execSknp] at h
    split at h <;> cases h
    · exact .fault _ _
    · exact .skipIf _ _ _
  case ldVxDt x => cases h; exact .setReg s _ s.rndDraws rfl
  case ldVxK x => cases h; exact .wait x rfl
  case ldDtVx x => cases h; exact .setDt _ ⟨x, rfl⟩
  case ldStVx x => cases h; exact .setSt _ ⟨x, rfl⟩
  case addI x => cases h; exact .setI _ (.inr ⟨x, .inl rfl⟩)
  case ldF x => cases h; exact .setI _ (.inr ⟨x, .inr rfl⟩)
  case ldB x => cases h; exact .storeAtI _ _ _ rfl
  case storeRegs x => cases h; exact .storeAtI _ _ _ (RegFile.length_upTo s.v x)
  case loadRegs x =>
    simp only [exec, execLoadRegs] at h
    split at h <;> cases h
    · exact .fault _ _
    · next bs hbs =>
      have hlen : bs.length = x.toNat + 1 := Memory.length_readBytes hbs
      have hx := nibble_lt x
      exact .setRegs _ s.rndDraws fun r hr =>
        RegFile.get_setFrom_zero_of_le _ _ (by omega) (hlen ▸ hr.lt_of_loadRegs)

/-! ### Registers and the other fields -/

/-- Settles O48, by the effects that write the register file. -/
theorem registersWrittenAsListed : Obligations.RegistersWrittenAsListed := by
  intro i s t h r hd hf
  have hr : i.LeavesReg r := ⟨hd, hf⟩
  cases exec_effect h with
  | setRegs v draws hv => exact hv r hr
  | draw v fb hi hv => exact hv r hr
  | _ => rfl

/-- Settles O50, effect by effect. -/
theorem otherStateWrittenAsListed : Obligations.OtherStateWrittenAsListed := by
  intro i s t h
  cases exec_effect h with
  | fault k n => simp
  | setPc pc => simp
  | call nnn hi hsp => simp
  | ret hi hsp => simp
  | setRegs v draws hv => simp
  | setI a hi => simp [hi]
  | store m hwf hm => simp
  | setDt b hi => simp [hi]
  | setSt b hi => simp [hi]
  | draw v fb hi hv => simp [hi]
  | wait x hi => simp [hi]

/-! ### The stack -/

/-- An execute step leaves SP and the stack alone, or is a call that fills the slot above SP, or a return. -/
theorem exec_stack {i : Instr} {s t : State} (h : exec i s = .next t) :
    (t.sp = s.sp ∧ t.stack = s.stack) ∨
    ((∃ nnn, i = .call nnn) ∧ s.sp ≠ 15 ∧ t.sp = s.sp + 1 ∧ t.stack = s.stack.set (s.sp + 1).toNat s.pc) ∨
    (i = .ret ∧ s.sp ≠ 0 ∧ t.sp = s.sp - 1 ∧ t.stack = s.stack) := by
  cases exec_effect h with
  | call nnn hi hsp => exact .inr (.inl ⟨⟨nnn, hi⟩, hsp, rfl, rfl⟩)
  | ret hi hsp => exact .inr (.inr ⟨hi, hsp, rfl, rfl⟩)
  | _ => exact .inl ⟨rfl, rfl⟩

/-- A tick leaves SP and the stack alone, or executes a call or a return that completes. -/
theorem step_stack {s t : State} (h : step s = .next t) :
    (t.sp = s.sp ∧ t.stack = s.stack) ∨
    ((∃ nnn, s.Executes (.call nnn)) ∧ s.sp ≠ 15 ∧ t.sp = s.sp + 1 ∧
      t.stack = s.stack.set (s.sp + 1).toNat (s.pc + 2)) ∨
    (s.Executes .ret ∧ s.sp ≠ 0 ∧ t.sp = s.sp - 1 ∧ t.stack = s.stack) := by
  obtain ⟨-, ⟨-, rfl⟩ | ⟨-, -, rfl⟩ | ⟨-, -, k, w, n, rfl⟩ | ⟨i, u, hi, hu, rfl⟩⟩ := step_executes h
  · simp
  · simp
  · simp
  · rcases exec_stack hu with hkeep | ⟨⟨nnn, rfl⟩, hcall⟩ | ⟨rfl, hret⟩
    · exact .inl (by simpa using hkeep)
    · exact .inr (.inl ⟨⟨nnn, hi⟩, by simpa using hcall⟩)
    · exact .inr (.inr ⟨hi, by simpa using hret⟩)

theorem nibble_toNat_add_one {sp : Nibble} (h : sp ≠ 15) : (sp + 1).toNat = sp.toNat + 1 := by
  bv_omega

theorem nibble_toNat_sub_one {sp : Nibble} (h : sp ≠ 0) : (sp - 1).toNat + 1 = sp.toNat := by
  bv_omega

/-- Writing the slot of number `j` changes no other slot. -/
theorem State.stackSlot_of_set {s t : State} {j : Nibble} {a : Addr} (h : t.stack = s.stack.set j.toNat a)
    (q : Nibble) : t.stackSlot q = if q = j then a else s.stackSlot q := by
  simp only [State.stackSlot, h, Vector.getElem_set, BitVec.toNat_inj, eq_comm (a := j)]

/-- Settles O47, by the three things a tick can do to the stack. -/
theorem stackDiscipline : Obligations.StackDiscipline := by
  intro s t h
  rcases step_stack h with ⟨hsp, hst⟩ | ⟨hcall, h15, hsp, hst⟩ | ⟨hret, h0, hsp, hst⟩
  · simp [State.stackSlot, hsp, hst]
  · have hnat : t.sp.toNat = s.sp.toNat + 1 := hsp ▸ nibble_toNat_add_one h15
    have hslot (q : Nibble) : t.stackSlot q = if q = t.sp then s.pc + 2 else s.stackSlot q :=
      State.stackSlot_of_set (hsp ▸ hst) q
    refine ⟨?_, fun j hj => ?_, fun _ => .inl ⟨hcall, hnat⟩⟩
    · have : (0 : Nibble) ≠ t.sp := fun e => by simp [← e] at hnat
      rw [hslot, if_neg this]
    · have hj' : j = t.sp := by
        by_contra hne
        exact hj (by rw [hslot, if_neg hne])
      exact ⟨hcall, hj', by rw [hslot, if_pos hj']⟩
  · have hnat : t.sp.toNat + 1 = s.sp.toNat := hsp ▸ nibble_toNat_sub_one h0
    have hslot (q : Nibble) : t.stackSlot q = s.stackSlot q := by simp [State.stackSlot, hst]
    exact ⟨hslot 0, fun j hj => absurd (hslot j) hj, fun _ => .inr ⟨hret, hnat⟩⟩

/-! ### Reset -/

/-- A bulk write below the bound of R55 puts its bytes. -/
theorem Memory.writeBytes_ok (m : Memory) (bytes : List Byte) {offset : Nat} (h : offset + bytes.length < 4096) :
    m.writeBytes bytes offset = some (m.pokeAll offset bytes) :=
  if_neg (Nat.not_le.2 h)

/-- Memory with a font and a ROM put over the reset content (R240). -/
def Memory.booted (font : Vector Byte Config.fontLen) (rom : List Byte) : Memory :=
  (Memory.pokeAll [] Config.fontBase font.toList).pokeAll Config.romBase rom

/-- Reset with a ROM that loads is the reset state with the font and the ROM in memory (R240). -/
theorem State.bootWith_ok (font : Vector Byte Config.fontLen) {rom : List Byte} (h : rom.length < 3584) :
    State.bootWith font rom = { State.reset with mem := Memory.booted font rom } := by
  have hfont : Config.fontBase + font.toList.length < 4096 := by rw [Vector.length_toList]; decide
  have hrom : Config.romBase + rom.length < 4096 := by simp only [Config.romBase]; omega
  unfold State.bootWith
  rw [Memory.writeBytes_ok _ _ hfont]
  simp only [Memory.writeBytes_ok _ _ hrom]
  rfl

theorem Memory.unlisted_eq_zero {a : Nat} (h : a < 0x050 ∨ 0x0A0 ≤ a) : Memory.unlisted a = 0 :=
  dif_neg (by simp only [Config.fontBase, Config.fontLen]; omega)

/-- Each byte after reset: of the ROM, of the font, or zero (R40). -/
theorem Memory.peek_booted (font : Vector Byte Config.fontLen) (rom : List Byte) (a : Nat) :
    (Memory.booted font rom).peek a =
      if 0x200 ≤ a ∧ a < 0x200 + rom.length then rom.getD (a - 0x200) 0
      else if 0x050 ≤ a ∧ a < 0x0A0 then font.toList.getD (a - 0x050) 0
      else 0 := by
  simp only [Memory.booted, Memory.peek_pokeAll, Memory.peek_nil, Vector.length_toList, Config.romBase, Config.fontBase,
    Config.fontLen, Nat.reduceAdd]
  by_cases hf : 0x050 ≤ a ∧ a < 0x0A0
  · rw [if_pos hf, if_pos hf]
  · rw [Memory.unlisted_eq_zero (by omega)]

/-- Settles O56: `State.bootWith_ok` gives every field but memory, `Memory.peek_booted` each byte. -/
theorem resetValues : Obligations.ResetValues := by
  intro font rom hrom
  refine ⟨_, State.bootWith_ok font hrom, fun k hk => ?_, fun k hk => ?_, fun a ha => ?_, rfl, rfl, fun r => ?_, rfl,
    fun j => ?_, rfl, rfl, fun k => ?_, fun x y _ _ => Framebuffer.pixel_dark x y, rfl, rfl, rfl⟩
  · rw [Memory.peek_booted, if_neg (by omega), if_pos (by omega)]
    simp [hk]
  · rw [Memory.peek_booted, if_pos (by omega)]
    simp [hk]
  · rw [Memory.peek_booted, if_neg (by omega), if_neg (by omega)]
  · simp [State.reg, RegFile.get, State.reset]
  · simp [State.stackSlot, State.reset]
  · simp [State.keyPressed, State.reset]

/-- Settles O45: nothing is listed, no fault is recorded, no redraw is pending. -/
theorem resetMeetsInvariant : Obligations.ResetMeetsInvariant where
  memWf := Memory.wf_nil
  faultOk := by intro r hr; cases hr
  redrawClear := fun _ => rfl

end Sys2Proof.Machine

/-! ## Memory and what every tick keeps (20_memory.md R50 to R63, 60_exceptions.md R201 to R215) -/

namespace Sys2Proof.Machine

/-! ### The invariant of a tick -/

/-- The fault record is in order where there is none. -/
theorem State.faultOk_of_fault_eq_none {s : State} (h : s.fault = none) : s.FaultOk := by
  intro r hr
  rw [h] at hr
  cases hr

/-- The record of a fault taken before PC has moved names PC (R201 to R203). -/
theorem State.faultOk_raiseInFetch (s : State) (k : FaultKind) (w : Option Word) (n : Nat) :
    (s.raiseInFetch k w n).FaultOk := by
  intro r hr
  rw [State.raiseInFetch_fault] at hr
  cases hr
  exact ⟨rfl, fun _ => rfl⟩

/-- A machine that has not stopped has recorded no fault. -/
theorem State.Inv.fault_eq_none {s : State} (h : s.Inv) (hs : s.exec ≠ .stopped) : s.fault = none := by
  cases hf : s.fault with
  | none => rfl
  | some r => exact absurd (h.faultOk r hf).1 hs

/-- Phase 6 clears the redraw flag of a machine that has not stopped (R215). -/
theorem State.signalRedraw_redraw_eq_false {s : State} (h : s.exec ≠ .stopped) : s.signalRedraw.redraw = false := by
  unfold State.signalRedraw
  rw [if_neg h]
  split
  · rfl
  · next hr => simpa using hr

/-- Phase 6 does nothing after a fault (R201, R215). -/
@[simp] theorem State.signalRedraw_raiseInFetch (s : State) (k : FaultKind) (w : Option Word) (n : Nat) :
    (s.raiseInFetch k w n).signalRedraw = s.raiseInFetch k w n :=
  if_pos rfl

/-- Phase 6 brings a state with memory and fault record in order to the invariant. -/
theorem State.inv_signalRedraw {s : State} (hmem : s.mem.wf) (hfault : s.FaultOk) : s.signalRedraw.Inv where
  memWf := by rwa [State.signalRedraw_mem]
  faultOk := by simpa only [State.FaultOk, State.signalRedraw_fault, State.signalRedraw_exec, State.signalRedraw_pc]
  redrawClear := fun h => State.signalRedraw_redraw_eq_false (by rwa [State.signalRedraw_exec] at h)

/-- An execute step keeps memory canonical. -/
theorem exec_mem_wf {i : Instr} {s t : State} (h : exec i s = .next t) (hs : s.mem.wf) : t.mem.wf := by
  cases exec_effect h with
  | store m hwf hm => exact hwf hs
  | _ => exact hs

/-- An execute step leaves the fault record in order: its own, or none. -/
theorem exec_faultOk {i : Instr} {s t : State} (h : exec i s = .next t) (hs : s.fault = none) : t.FaultOk := by
  rcases exec_fault_or_completes h with ⟨k, n, rfl⟩ | ⟨hf, -⟩
  · exact State.faultOk_raiseInFetch _ _ _ _
  · exact State.faultOk_of_fault_eq_none (hf.trans hs)

/-- Settles O44, by the four things a tick can do. -/
theorem stepKeepsInvariant : Obligations.StepKeepsInvariant := by
  intro s t hinv h
  obtain ⟨hs, hcases⟩ := step_executes h
  have hnone : s.fault = none := hinv.fault_eq_none hs
  have hmem : s.beforeFetch.mem.wf := by rw [State.beforeFetch_mem]; exact hinv.memWf
  have hfault : s.beforeFetch.fault = none := by rw [State.beforeFetch_fault, hnone]
  rcases hcases with ⟨-, rfl⟩ | ⟨-, -, rfl⟩ | ⟨-, -, k, w, n, rfl⟩ | ⟨i, u, -, hu, rfl⟩
  · exact {
      memWf := by rw [State.afterInput_mem]; exact hinv.memWf
      faultOk := State.faultOk_of_fault_eq_none (by rw [State.afterInput_fault, hnone])
      redrawClear := fun hne => absurd rfl hne }
  · exact State.inv_signalRedraw hmem (State.faultOk_of_fault_eq_none hfault)
  · rw [← State.signalRedraw_raiseInFetch]
    exact State.inv_signalRedraw hmem (State.faultOk_raiseInFetch _ _ _ _)
  · exact State.inv_signalRedraw (exec_mem_wf hu hmem) (exec_faultOk hu hfault)

/-! ### The fetch -/

/-- A Running machine is still Running when phase 4 looks (R212, R213). -/
theorem State.beforeFetch_exec_of_running {s : State} (h : s.exec = .running) : s.beforeFetch.exec = .running := by
  rw [s.beforeFetch_of_not_waiting (by simp [h]), State.afterInput_exec, h]

/-- A Running tick without Quit is phase 5 and then phase 6. -/
theorem step_of_fetchExecute {s u : State} (hrun : s.exec = .running) (hq : .quit ∉ s.events)
    (hu : s.beforeFetch.fetchExecute = .next u) : step s = .next u.signalRedraw := by
  unfold step State.tick State.dispatch
  rw [if_neg (by simp [hrun]), if_neg (by simpa using hq), if_pos (State.beforeFetch_exec_of_running hrun), hu]

/-- A Running tick whose phase 5 takes a fault before PC has moved changes only the timers, KEY, the consumed input,
EXEC and FAULT (R202). -/
theorem State.raiseInFetch_frame {s t : State} {k : FaultKind} {w : Option Word} {n : Nat} (hrun : s.exec = .running)
    (ht : t = s.beforeFetch.raiseInFetch k w n) :
    t = { s with dt := t.dt, st := t.st, key := t.key, inputs := s.inputs.tail, exec := t.exec, fault := t.fault } := by
  subst ht
  obtain ⟨key, hkey⟩ := s.afterInput_eq
  rw [s.beforeFetch_of_not_waiting (by simp [hrun]), hkey]
  rfl

/-- Settles O33: the two faults of the fetch are those of `State.fetchExecute_faults`. -/
theorem fetchPastTheEndFaults : Obligations.FetchPastTheEndFaults := by
  intro s hrun hq hpc
  obtain ⟨hread, hadvance, -⟩ := s.beforeFetch.fetchExecute_faults
  rw [State.beforeFetch_pc] at hread hadvance
  have hlt : s.pc.toNat < 4096 := s.pc.isLt
  obtain ⟨k, hk, hk5, hk4⟩ : ∃ k, s.beforeFetch.fetchExecute = .next (s.beforeFetch.raiseInFetch k none 4096) ∧
      (s.pc.toNat = 4095 → k = .memoryOutOfRange) ∧ (s.pc.toNat = 4094 → k = .pcOutOfRange) := by
    rcases (by omega : s.pc.toNat = 4094 ∨ s.pc.toNat = 4095) with h | h
    · exact ⟨_, hadvance h, by omega, fun _ => rfl⟩
    · exact ⟨_, hread h, fun _ => rfl, by omega⟩
  have hstep := step_of_fetchExecute hrun hq hk
  rw [State.signalRedraw_raiseInFetch] at hstep
  exact ⟨_, _, hstep, rfl, rfl, by rw [State.beforeFetch_pc], rfl, rfl, hk5, hk4,
    State.raiseInFetch_frame hrun rfl⟩

/-! ### What an instruction stores -/

/-- Settles O49: the one effect that writes memory is the store. -/
theorem memoryWrittenAsListed : Obligations.MemoryWrittenAsListed := by
  intro i s t h a ha
  cases exec_effect h with
  | store m hwf hm => exact hm a ha
  | _ => rfl

/-- A store of registers that fits leaves every field but memory alone, and `V[q]` at address I + q (R144). -/
theorem exec_storeRegs_of_fits {x : Nibble} {s t : State} (hfit : s.i.toNat + x.toNat ≤ 4095)
    (h : exec (.storeRegs x) s = .next t) :
    t = { s with mem := t.mem } ∧ ∀ q : Nibble, q.toNat ≤ x.toNat → t.mem.peek (s.i.toNat + q.toNat) = s.reg q := by
  cases h
  have hlen : (s.v.upTo x).length = x.toNat + 1 := RegFile.length_upTo s.v x
  rcases s.storeAtI_cases (.storeRegs x) (s.v.upTo x) with ⟨-, hover⟩ | ⟨m, hm, -, -, hpeek⟩
  · omega
  · rw [hm]
    refine ⟨rfl, fun q hq => ?_⟩
    rw [hpeek, if_pos (by omega), Nat.add_sub_cancel_left, RegFile.getD_upTo _ _ _ hq]
    rfl

/-- The fetch's advance of PC does not wrap where the next address exists (R25). -/
theorem addr_toNat_add_two {pc : Addr} (h : pc.toNat + 2 ≤ 4095) : (pc + 2).toNat = pc.toNat + 2 := by
  bv_omega

/-- Settles O51: the store puts V[0] and V[1] at the two addresses that the next fetch reads. -/
theorem storedBytesAreFetchedNext : Obligations.StoredBytesAreFetchedNext := by
  intro x i s t hex hx hi hpc hdecode hfit hstep hq
  obtain ⟨u, hu, hstep'⟩ := step_of_executes hex
  rw [hstep'] at hstep
  cases hstep
  obtain ⟨-, hrunning, hfetch, -⟩ := hex
  obtain ⟨hu_eq, hbytes⟩ := exec_storeRegs_of_fits (by simpa using hfit) hu
  have hrun : u.signalRedraw.exec = .running := by
    rw [State.signalRedraw_exec, hu_eq]
    exact hrunning
  have hpc' : u.signalRedraw.pc.toNat = s.pc.toNat + 2 := by
    rw [State.signalRedraw_pc, hu_eq]
    exact addr_toNat_add_two hfetch
  have hword : u.signalRedraw.wordAtPc = packWord (s.beforeFetch.reg 0) (s.beforeFetch.reg 1) := by
    have h0 := hbytes 0 (Nat.zero_le _)
    have h1 := hbytes 1 hx
    simp only [State.beforeFetch_i, hi] at h0 h1
    rw [State.wordAtPc, hpc', State.signalRedraw_mem]
    exact congrArg₂ packWord h0 h1
  exact ⟨hq, State.beforeFetch_exec_of_running hrun, by omega, by rw [hword, hdecode]⟩

/-! ### The memory primitives -/

/-- A bulk write that reaches the bound of R55 fails. -/
theorem Memory.writeBytes_none (m : Memory) (bytes : List Byte) {offset : Nat} (h : 4096 ≤ offset + bytes.length) :
    m.writeBytes bytes offset = none :=
  if_pos h

/-- Settles O55: below the bound the write is `Memory.pokeAll`. -/
theorem bulkWrite : Obligations.BulkWrite := by
  intro m bytes offset
  refine ⟨m.writeBytes_none bytes, fun h => ⟨_, m.writeBytes_ok bytes h, fun hwf => ?_, fun k hk => ?_, fun a ha => ?_⟩⟩
  · exact Memory.wf_pokeAll hwf (by omega)
  · rw [Memory.peek_pokeAll, if_pos (by omega), Nat.add_sub_cancel_left, List.getD_eq_getElem _ _ hk]
  · rw [Memory.peek_pokeAll, if_neg (by omega)]

/-- Settles O53: an address that exists is peeked and poked, and read after write is `Memory.peek_poke`. -/
theorem byteAccess : Obligations.ByteAccess := by
  intro m a b
  refine ⟨fun ha => ⟨_, m.write8_ok ha b, ?_, fun x hx => ?_⟩, fun ha => ⟨m.read8_error ha, m.write8_error ha b⟩⟩
  · rw [Memory.read8_ok _ ha, Memory.peek_poke, if_pos rfl]
  · simp only [Memory.read8, Memory.peek_poke, if_neg hx]

/-- A packed word by arithmetic (R56). -/
theorem toNat_packWord (hi lo : Byte) : (packWord hi lo).toNat = hi.toNat * 256 + lo.toNat := by
  rw [packWord, BitVec.toNat_append, ← Nat.shiftLeft_add_eq_or_of_lt lo.isLt, Nat.shiftLeft_eq]

/-- The fetch at the last address cannot read its second byte (R54). -/
theorem Memory.read16_error (m : Memory) : m.read16 4095 = .error 4096 := by
  simp only [Memory.read16, m.read8_ok (show 4095 < 4096 by decide), m.read8_error (Nat.le_refl 4096)]

/-- Settles O54, by the word `Memory.read16_ok` reads and its value. -/
theorem wordReadIsBigEndian : Obligations.WordReadIsBigEndian :=
  fun m _ => ⟨fun h => ⟨_, m.read16_ok h, toNat_packWord _ _⟩, m.read16_error⟩

end Sys2Proof.Machine

/-! ## The encoding (30_encoding.md R70 to R76)

The words of R73 and R74 go through the decoder one class at a time (R75): the class picks the sub-decoder, the word is
rebuilt from the fields that its format names. -/

namespace Sys2Proof

/-! ### The decoder by class (R75) -/

theorem decodeWord_of_class8 {w : Word} (h : fieldC w = 0x8#4) : decodeWord w = decode8 w := by
  rw [decodeWord, h]
  rfl

theorem decodeWord_of_classE {w : Word} (h : fieldC w = 0xE#4) : decodeWord w = decodeE w := by
  rw [decodeWord, h]
  rfl

theorem decodeWord_of_classF {w : Word} (h : fieldC w = 0xF#4) : decodeWord w = decodeF w := by
  rw [decodeWord, h]
  rfl

theorem decode0_isSome (w : Word) : (decode0 w).isSome = decide ((fieldNNN w).toNat ∈ [0x0E0, 0x0EE]) := by
  unfold decode0
  split <;> simp_all

theorem decode8_isSome (w : Word) :
    (decode8 w).isSome = decide ((fieldN w).toNat ∈ [0x0, 0x1, 0x2, 0x3, 0x4, 0x5, 0x6, 0x7, 0xE]) := by
  unfold decode8
  split <;> simp_all

theorem decodeE_isSome (w : Word) : (decodeE w).isSome = decide ((fieldNN w).toNat ∈ [0x9E, 0xA1]) := by
  unfold decodeE
  split <;> simp_all

theorem decodeF_isSome (w : Word) :
    (decodeF w).isSome =
      decide ((fieldNN w).toNat ∈ [0x07, 0x0A, 0x15, 0x18, 0x1E, 0x29, 0x33, 0x55, 0x65]) := by
  unfold decodeF
  split <;> simp_all

/-! ### Decoding what was encoded -/

theorem decodeWord_encode (i : Instr) : decodeWord (encode i) = some i := by
  cases i with
  | cls | ret => rfl
  | jp | call | ldI | jpV0 | seByte | sneByte | ldByte | addByte | rnd | seReg | sneReg | drw =>
    simp [encode, decodeWord]
  | ldReg | orReg | andReg | xorReg | addReg | sub | shr | subn | shl =>
    rw [encode, decodeWord_of_class8 (fieldC_wordXYN ..)]
    simp [decode8]
  | skp | sknp =>
    rw [encode, decodeWord_of_classE (fieldC_wordXNN ..)]
    simp [decodeE]
  | ldVxDt | ldVxK | ldDtVx | ldStVx | addI | ldF | ldB | storeRegs | loadRegs =>
    rw [encode, decodeWord_of_classF (fieldC_wordXNN ..)]
    simp [decodeF]

/-- Settles O1: the two bytes of an instruction pack to its word, which decodes to it. -/
theorem decodeOfEncode : Obligations.DecodeOfEncode := by
  intro i rest
  refine ⟨decodeWord_encode i, ?_⟩
  simp [encodeBytes, decodeBytes, decodeWord_encode]

/-- Settles O5: each word is the one that R73 builds for its instruction. -/
theorem sampleWordsDecode : Obligations.SampleWordsDecode :=
  ⟨decodeWord_encode (.call 0x300), decodeWord_encode (.seReg 1 2), decodeWord_encode (.sknp 5),
    decodeWord_encode (.shl 0 1), decodeWord_encode (.loadRegs 2), decodeWord_encode (.drw 0 1 5),
    decodeWord_encode (.ldVxK 2)⟩

/-! ### Encoding what was decoded -/

theorem wordNNN_of_class {w : Word} {c : Nibble} (hc : fieldC w = c) : wordNNN c (fieldNNN w) = w :=
  hc ▸ wordNNN_fields w

theorem wordXNN_of_class {w : Word} {c : Nibble} {nn : Byte} (hc : fieldC w = c) (hnn : fieldNN w = nn) :
    wordXNN c (fieldX w) nn = w :=
  hc ▸ hnn ▸ wordXNN_fields w

theorem wordXYN_of_class {w : Word} {c n : Nibble} (hc : fieldC w = c) (hn : fieldN w = n) :
    wordXYN c (fieldX w) (fieldY w) n = w :=
  hc ▸ hn ▸ wordXYN_fields w

/-- Two words of one class differ in NNN if at all. -/
theorem word_eq_iff_of_class {u w : Word} (h : fieldC u = fieldC w) : u = w ↔ fieldNNN u = fieldNNN w := by
  refine ⟨congrArg fieldNNN, fun hnnn => ?_⟩
  rw [← wordNNN_fields u, ← wordNNN_fields w, h, hnnn]

theorem encode_of_decode0 {w : Word} {i : Instr} (hc : fieldC w = 0x0#4) (h : decode0 w = some i) :
    encode i = w := by
  unfold decode0 at h
  split at h <;> cases h
  all_goals next hnnn => exact ((word_eq_iff_of_class hc).2 (BitVec.eq_of_toNat_eq hnnn)).symm

theorem encode_of_decode8 {w : Word} {i : Instr} (hc : fieldC w = 0x8#4) (h : decode8 w = some i) :
    encode i = w := by
  unfold decode8 at h
  split at h <;> cases h
  all_goals next hn => exact wordXYN_of_class hc (BitVec.eq_of_toNat_eq hn)

theorem encode_of_decodeE {w : Word} {i : Instr} (hc : fieldC w = 0xE#4) (h : decodeE w = some i) :
    encode i = w := by
  unfold decodeE at h
  split at h <;> cases h
  all_goals next hnn => exact wordXNN_of_class hc (BitVec.eq_of_toNat_eq hnn)

theorem encode_of_decodeF {w : Word} {i : Instr} (hc : fieldC w = 0xF#4) (h : decodeF w = some i) :
    encode i = w := by
  unfold decodeF at h
  split at h <;> cases h
  all_goals next hnn => exact wordXNN_of_class hc (BitVec.eq_of_toNat_eq hnn)

/-- Settles O2, class by class. -/
theorem encodeOfDecode : Obligations.EncodeOfDecode := by
  intro w i h
  unfold decodeWord at h
  split at h
  case h_1 hc => exact encode_of_decode0 (BitVec.eq_of_toNat_eq hc) h
  case h_2 hc | h_3 hc | h_11 hc | h_12 hc =>
    cases h
    exact wordNNN_of_class (BitVec.eq_of_toNat_eq hc)
  case h_4 hc | h_5 hc | h_7 hc | h_8 hc | h_13 hc =>
    cases h
    exact wordXNN_of_class (BitVec.eq_of_toNat_eq hc) rfl
  case h_6 hc | h_10 hc =>
    split at h
    · next hn =>
      cases h
      exact wordXYN_of_class (BitVec.eq_of_toNat_eq hc) hn
    · cases h
  case h_9 hc => exact encode_of_decode8 (BitVec.eq_of_toNat_eq hc) h
  case h_14 hc =>
    cases h
    exact wordXYN_of_class (BitVec.eq_of_toNat_eq hc) rfl
  case h_15 hc => exact encode_of_decodeE (BitVec.eq_of_toNat_eq hc) h
  case h_16 =>
    have hc : (fieldC w).toNat = 0xF := by
      have hlt : (fieldC w).toNat < 16 := (fieldC w).isLt
      simp only [imp_false] at *
      omega
    exact encode_of_decodeF (BitVec.eq_of_toNat_eq hc) h

/-! ### The decode map (R74) -/

theorem Instr.row_mem (i : Instr) : i.row ∈ opcodeRows := by
  cases i <;> simp [Instr.row, opcodeRows]

theorem opcodeRows_nodup : opcodeRows.Nodup := by
  simp [opcodeRows]

/-- The match of a row, taken as a word, decodes to an instruction of that row. -/
theorem decodeWord_match : ∀ r ∈ opcodeRows, (decodeWord r.1).map Instr.row = some r :=
  List.map_inj_left.1 rfl

open Laws.InRow in
theorem encode_and_mask (i : Instr) : encode i &&& i.row.2 = i.row.1 :=
  match i with
  | .cls => cls | .ret => ret | .jp _ => jp _ | .call _ => call _ | .seByte _ _ => seByte _ _
  | .sneByte _ _ => sneByte _ _ | .seReg _ _ => seReg _ _ | .ldByte _ _ => ldByte _ _ | .addByte _ _ => addByte _ _
  | .ldReg _ _ => ldReg _ _ | .orReg _ _ => orReg _ _ | .andReg _ _ => andReg _ _ | .xorReg _ _ => xorReg _ _
  | .addReg _ _ => addReg _ _ | .sub _ _ => sub _ _ | .shr _ _ => shr _ _ | .subn _ _ => subn _ _
  | .shl _ _ => shl _ _ | .sneReg _ _ => sneReg _ _ | .ldI _ => ldI _ | .jpV0 _ => jpV0 _ | .rnd _ _ => rnd _ _
  | .drw _ _ _ => drw _ _ _ | .skp _ => skp _ | .sknp _ => sknp _ | .ldVxDt _ => ldVxDt _ | .ldVxK _ => ldVxK _
  | .ldDtVx _ => ldDtVx _ | .ldStVx _ => ldStVx _ | .addI _ => addI _ | .ldF _ => ldF _ | .ldB _ => ldB _
  | .storeRegs _ => storeRegs _ | .loadRegs _ => loadRegs _

theorem decodeWord_and_mask {w : Word} {i : Instr} (h : decodeWord w = some i) : w &&& i.row.2 = i.row.1 :=
  encodeOfDecode w i h ▸ encode_and_mask i

/-- Every mask fixes the class (R74). -/
theorem fieldC_of_row {w : Word} {i : Instr} (h : w &&& i.row.2 = i.row.1) : fieldC w = fieldC i.row.1 := by
  have hmask : fieldC i.row.2 = BitVec.allOnes 4 := by
    cases i <;> (rw [Instr.row]; rfl)
  calc
    fieldC w = fieldC w &&& fieldC i.row.2 := by rw [hmask, BitVec.and_allOnes]
    _ = fieldC (w &&& i.row.2) := BitVec.extractLsb'_and.symm
    _ = fieldC i.row.1 := by rw [h]

theorem fieldN_and_mask (w : Word) : fieldN (w &&& 0xF00F) = fieldN w :=
  BitVec.extractLsb'_and.trans BitVec.and_allOnes

theorem fieldNN_and_mask (w : Word) : fieldNN (w &&& 0xF0FF) = fieldNN w :=
  BitVec.extractLsb'_and.trans BitVec.and_allOnes

/-- A word that matches a row decodes to an instruction of that row. -/
theorem decodeWord_of_row {w : Word} (i : Instr) (h : w &&& i.row.2 = i.row.1) :
    (decodeWord w).map Instr.row = some i.row := by
  have hc := fieldC_of_row h
  cases i <;> rw [Instr.row] at hc h
  case cls | ret =>
    have hw : w = _ := BitVec.and_allOnes.symm.trans h
    rw [hw]
    rfl
  case jp | call | seByte | sneByte | ldByte | addByte | ldI | jpV0 | rnd | drw =>
    rw [decodeWord, hc]
    rfl
  case seReg | sneReg =>
    rw [decodeWord, hc, ← fieldN_and_mask, h]
    rfl
  case ldReg | orReg | andReg | xorReg | addReg | sub | shr | subn | shl =>
    rw [decodeWord_of_class8 hc, decode8, ← fieldN_and_mask, h]
    rfl
  case skp | sknp =>
    rw [decodeWord_of_classE hc, decodeE, ← fieldNN_and_mask, h]
    rfl
  case ldVxDt | ldVxK | ldDtVx | ldStVx | addI | ldF | ldB | storeRegs | loadRegs =>
    rw [decodeWord_of_classF hc, decodeF, ← fieldNN_and_mask, h]
    rfl

theorem decodeWord_of_opcodeRow {w : Word} {r : Word × Word} (hr : r ∈ opcodeRows) (h : w &&& r.2 = r.1) :
    (decodeWord w).map Instr.row = some r := by
  obtain ⟨i, -, rfl⟩ := Option.map_eq_some_iff.1 (decodeWord_match r hr)
  exact decodeWord_of_row i h

/-- Settles O3: a word decodes into the row it matches, so it matches at most one. -/
theorem decodeFollowsTheMap : Obligations.DecodeFollowsTheMap := by
  refine ⟨Instr.row_mem, fun _ _ => decodeWord_and_mask, fun w => ⟨fun hnone r hr h => ?_, fun hno => ?_⟩, ?_⟩
  · simpa [hnone] using decodeWord_of_opcodeRow hr h
  · cases hd : decodeWord w with
    | none => rfl
    | some i => exact absurd (decodeWord_and_mask hd) (hno _ i.row_mem)
  · refine opcodeRows_nodup.imp_of_mem fun hr hq hne w ⟨h, h'⟩ => hne ?_
    exact Option.some.inj ((decodeWord_of_opcodeRow hr h).symm.trans (decodeWord_of_opcodeRow hq h'))

/-! ### The prose of R75 -/

/-- The class as R75's check reads it. -/
theorem toNat_shiftRight_12 (w : Word) : (w >>> 12).toNat = (fieldC w).toNat := by
  rw [fieldC, BitVec.extractLsb'_toNat, BitVec.toNat_ushiftRight]
  omega

/-- N as R75's check reads it. -/
theorem toNat_and_000F (w : Word) : (w &&& 0x000F#16).toNat = (fieldN w).toNat :=
  (BitVec.toNat_and ..).trans (Nat.and_two_pow_sub_one_eq_mod w.toNat 4)

/-- NN as R75's check reads it. -/
theorem toNat_and_00FF (w : Word) : (w &&& 0x00FF#16).toNat = (fieldNN w).toNat :=
  (BitVec.toNat_and ..).trans (Nat.and_two_pow_sub_one_eq_mod w.toNat 8)

/-- Settles O4, class by class. -/
theorem recognisedWordsByClass : Obligations.RecognisedWordsByClass := by
  intro w
  unfold wordRecognised decodeWord
  simp only [toNat_shiftRight_12, toNat_and_000F, toNat_and_00FF]
  split
  case h_1 hc =>
    have hcls : w = 0x00E0#16 ↔ fieldNNN w = 0x0E0#12 := word_eq_iff_of_class (BitVec.eq_of_toNat_eq hc)
    have hret : w = 0x00EE#16 ↔ fieldNNN w = 0x0EE#12 := word_eq_iff_of_class (BitVec.eq_of_toNat_eq hc)
    simp [hc, decode0_isSome, hcls, hret, ← BitVec.toNat_inj]
  case h_6 hc | h_10 hc =>
    have hn : fieldN w = 0 ↔ (fieldN w).toNat = 0 := BitVec.toNat_inj.symm
    split <;> simp_all
  case h_9 hc =>
    simp only [hc, decode8_isSome]
    rfl
  case h_15 hc =>
    simp only [hc, decodeE_isSome]
    rfl
  case h_16 =>
    have hc : (fieldC w).toNat = 0xF := by
      have hlt : (fieldC w).toNat < 16 := (fieldC w).isLt
      simp only [imp_false] at *
      omega
    simp only [hc, decodeF_isSome]
    rfl
  all_goals
    next hc =>
      simp only [hc]
      rfl

end Sys2Proof

namespace Sys2Proof.Machine

/-! ### A word that is no instruction (R76) -/

/-- Settles O32: the fault of the decoding is that of `State.fetchExecute_faults`. -/
theorem unrecognisedWordFaults : Obligations.UnrecognisedWordFaults := by
  intro s hrun hq hpc hnone
  obtain ⟨-, -, hfault⟩ := s.beforeFetch.fetchExecute_faults
  have hword : s.beforeFetch.wordAtPc = s.wordAtPc := by
    rw [State.wordAtPc, State.beforeFetch_mem, State.beforeFetch_pc]
    rfl
  rw [State.beforeFetch_pc, hword] at hfault
  have hstep := step_of_fetchExecute hrun hq (hfault hpc hnone)
  rw [State.signalRedraw_raiseInFetch] at hstep
  exact ⟨_, hstep, rfl, by rw [State.raiseInFetch_fault, State.beforeFetch_pc], State.raiseInFetch_frame hrun rfl⟩

end Sys2Proof.Machine

/-! ## Control transfer (40_flow.md R100 to R103)

A call and a return are said once, case by case on SP; that a return undoes a call follows from the two statements
alone. -/

namespace Sys2Proof.Machine

/-! ### The target of an indexed jump -/

theorem toNat_indexedTarget (nnn : Addr) (v0 : Byte) :
    (indexedTarget nnn v0).toNat = (nnn.toNat + v0.toNat) % 4096 :=
  BitVec.toNat_ofNat ..

/-! ### Calls and returns -/

theorem exec_call_of_sp_ne {s : State} (nnn : Addr) (h : s.sp ≠ 15) :
    exec (.call nnn) s =
      .next { s with sp := s.sp + 1, stack := s.stack.set (s.sp + 1).toNat s.pc, pc := nnn } :=
  if_neg h

theorem exec_ret_of_sp_ne {s : State} (h : s.sp ≠ 0) :
    exec .ret s = .next { s with pc := s.stackSlot s.sp, sp := s.sp - 1 } :=
  if_neg h

/-- What `raise` leaves is what the statements say of a fault (R201 to R203). -/
theorem takesFault_iff_raise {i : Instr} {s : State} {kind : FaultKind} {info : Nat} :
    TakesFault i s kind info ↔ exec i s = .next (s.raise kind (encode i) info) :=
  Iff.rfl

theorem takesFault_call_of_sp_eq {s : State} (nnn : Addr) (h : s.sp = 15) :
    TakesFault (.call nnn) s .stackOverflow 15 := by
  rw [takesFault_iff_raise, exec, execCall, if_pos h, h]
  rfl

theorem takesFault_ret_of_sp_eq {s : State} (h : s.sp = 0) : TakesFault .ret s .stackUnderflow 0 := by
  rw [takesFault_iff_raise, exec, execRet, if_pos h, h]
  rfl

/-- Reading the slot at SP depends on SP and the stack only. -/
theorem State.stackSlot_sp_congr {s t : State} (hsp : t.sp = s.sp) (hstack : t.stack = s.stack) :
    t.stackSlot t.sp = s.stackSlot s.sp := by
  simp only [State.stackSlot, hsp, hstack]

/-! ### The statements of 40_flow.md -/

/-- Settles O6. -/
theorem jumpSetsPc : Obligations.JumpSetsPc :=
  fun nnn _ => ⟨Laws.InRow.jp nnn, _, rfl, rfl, rfl⟩

/-- Settles O7, by the value of the indexed target. -/
theorem indexedJumpWraps : Obligations.IndexedJumpWraps :=
  fun nnn s => ⟨Laws.InRow.jpV0 nnn, _, rfl, toNat_indexedTarget nnn (s.reg 0), rfl⟩

/-- Settles O8, by the two cases of SP: below 15 the increment does not wrap and the write reaches the new slot only. -/
theorem callPushesReturnAddress : Obligations.CallPushesReturnAddress := by
  refine fun nnn s => ⟨Laws.InRow.call nnn, fun hsp => ?_, takesFault_call_of_sp_eq nnn⟩
  exact ⟨_, exec_call_of_sp_ne nnn hsp, nibble_toNat_add_one hsp, State.stackSlot_of_set rfl, rfl, rfl⟩

/-- Settles O9, by the two cases of SP: above 0 the decrement does not wrap. -/
theorem returnPopsReturnAddress : Obligations.ReturnPopsReturnAddress := by
  refine fun s => ⟨Laws.InRow.ret, fun hsp => ?_, takesFault_ret_of_sp_eq⟩
  exact ⟨_, exec_ret_of_sp_ne hsp, rfl, Nat.eq_sub_of_add_eq (nibble_toNat_sub_one hsp), rfl⟩

/-- Settles O10: the call leaves SP above 0 with PC in its slot (O8), so the return completes and takes back both
(O9). -/
theorem returnUndoesCall : Obligations.ReturnUndoesCall := by
  intro nnn s t u h15 hcall hsp hstack
  obtain ⟨-, hpush, -⟩ := callPushesReturnAddress nnn s
  obtain ⟨-, hpop, -⟩ := returnPopsReturnAddress u
  obtain ⟨t', ht', hup, hslot, -, -⟩ := hpush h15
  obtain rfl : t = t' := Host.Outcome.next.inj (hcall.symm.trans ht')
  have h0 : u.sp ≠ 0 := fun h => by simp [← hsp, h] at hup
  obtain ⟨w, hw, hpc, hdown, hframe⟩ := hpop h0
  refine ⟨w, hw, ?_, BitVec.eq_of_toNat_eq ?_, hframe⟩
  · calc
      w.pc = u.stackSlot u.sp := hpc
      _ = t.stackSlot t.sp := State.stackSlot_sp_congr hsp hstack
      _ = s.pc := by rw [hslot, if_pos rfl]
  · rw [hdown, hsp, hup, Nat.add_sub_cancel]

end Sys2Proof.Machine

/-! ## Skips (41_skip.md R110 to R116)

That the shared skip of R110 meets `SkipsWhen` is said once; each of the six instructions is that skip on its own
comparison or key test. -/

namespace Sys2Proof.Machine

/-! ### The skip primitive and the comparisons -/

/-- An instruction whose execute step is the conditional skip of R110 skips exactly when the condition holds. -/
theorem skipsWhen_of_exec_eq_skipIf {i : Instr} {s : State} {c : Bool} {p : Prop}
    (hexec : exec i s = .next (s.skipIf i c)) (hc : c = true ↔ p) : SkipsWhen i s p := by
  rw [SkipsWhen, takesFault_iff_raise, hexec, ← hc]
  rcases s.skipIf_cases i c with ⟨hs, htrue, hover⟩ | ⟨hs, htrue, hfit⟩ | ⟨hs, hfalse⟩ <;> rw [hs]
  · exact ⟨absurd htrue, fun _ hle => absurd hover (Nat.not_lt.2 hle), fun _ _ => rfl⟩
  · exact ⟨absurd htrue, fun _ _ => ⟨_, rfl, addr_toNat_add_two hfit, rfl⟩,
      fun _ hgt => absurd hgt (Nat.not_lt.2 hfit)⟩
  · simp [hfalse]

/-- Settles O11: each instruction is the conditional skip on its comparison. -/
theorem compareSkips : Obligations.CompareSkips := fun x y nn _ =>
  ⟨⟨Laws.InRow.seByte x nn, skipsWhen_of_exec_eq_skipIf rfl beq_iff_eq⟩,
    ⟨Laws.InRow.sneByte x nn, skipsWhen_of_exec_eq_skipIf rfl bne_iff_ne⟩,
    ⟨Laws.InRow.seReg x y, skipsWhen_of_exec_eq_skipIf rfl beq_iff_eq⟩,
    ⟨Laws.InRow.sneReg x y, skipsWhen_of_exec_eq_skipIf rfl bne_iff_ne⟩⟩

/-! ### The key that a register names -/

theorem keyOperand_eq_none {b : Byte} (h : b.toNat > 15) : keyOperand b = none :=
  if_pos h

theorem keyOperand_eq_some {b : Byte} {k : Nibble} (h : b.toNat = k.toNat) : keyOperand b = some k := by
  have hk := nibble_lt k
  rw [keyOperand, if_neg (by omega), Option.some_inj]
  bv_omega

theorem exec_skp_of_key {x k : Nibble} {s : State} (h : (s.reg x).toNat = k.toNat) :
    exec (.skp x) s = .next (s.skipIf (.skp x) (s.keyPressed k)) := by
  rw [exec, execSkp, keyOperand_eq_some h]

theorem exec_sknp_of_key {x k : Nibble} {s : State} (h : (s.reg x).toNat = k.toNat) :
    exec (.sknp x) s = .next (s.skipIf (.sknp x) (!s.keyPressed k)) := by
  rw [exec, execSknp, keyOperand_eq_some h]

theorem takesFault_skp_of_gt {x : Nibble} {s : State} (h : (s.reg x).toNat > 15) :
    TakesFault (.skp x) s .keyOutOfRange (s.reg x).toNat := by
  rw [takesFault_iff_raise, exec, execSkp, keyOperand_eq_none h]

theorem takesFault_sknp_of_gt {x : Nibble} {s : State} (h : (s.reg x).toNat > 15) :
    TakesFault (.sknp x) s .keyOutOfRange (s.reg x).toNat := by
  rw [takesFault_iff_raise, exec, execSknp, keyOperand_eq_none h]

/-- Settles O12, by whether V[x] is a key number: if it is, each instruction is the conditional skip on that key. -/
theorem keySkips : Obligations.KeySkips := by
  refine fun x s => ⟨⟨Laws.InRow.skp x, Laws.InRow.sknp x⟩,
    fun hout => ⟨takesFault_skp_of_gt hout, takesFault_sknp_of_gt hout⟩, fun k hk => ⟨?_, ?_⟩⟩
  · exact skipsWhen_of_exec_eq_skipIf (exec_skp_of_key hk) Iff.rfl
  · exact skipsWhen_of_exec_eq_skipIf (exec_sknp_of_key hk) (Bool.not_eq_true' _).to_iff

end Sys2Proof.Machine

/-! ## Register arithmetic (42_alu.md R120 to R132)

An instruction writes the register file in one of three ways: one register, a result and then VF, or a shift. What each
way leaves is said once; every statement is then one of them, with the value of its operation. -/

namespace Sys2Proof.Machine

/-! ### The ways of writing the register file -/

theorem writesReg_of_exec_eq_setReg {i : Instr} {s : State} {x : Nibble} {b b' : Byte}
    (hexec : exec i s = .next (s.setReg x b)) (hb : b = b') : WritesReg i s x b' :=
  ⟨_, hexec, fun r => hb ▸ s.reg_setReg x r b, rfl⟩

/-- The flag is written after the result, so it remains for x = 15 (R127, R128, R130). -/
theorem writesRegAndFlag_of_exec_eq_setWithFlag {i : Instr} {s : State} {x : Nibble} {b b' f f' : Byte}
    (hexec : exec i s = .next { s with v := s.v.setWithFlag x b f }) (hb : b = b') (hf : f = f') :
    WritesRegAndFlag i s x b' f' :=
  ⟨_, hexec, fun r => hb ▸ hf ▸ s.v.get_setWithFlag x r b f, rfl⟩

theorem writesRegAndFlag_of_exec_eq_shift {i : Instr} {s : State} {x : Nibble} {flag result : Byte → Byte} {b f : Byte}
    (hexec : exec i s = .next { s with v := s.v.shift x flag result }) (hx : x ≠ flagReg)
    (hb : result (s.reg x) = b) (hf : flag (s.reg x) = f) : WritesRegAndFlag i s x b f :=
  ⟨_, hexec, fun r => hb ▸ hf ▸ s.v.get_shift x r flag result hx, rfl⟩

/-- What a shift of VF itself leaves in VF, where it held `old` (decision D8). -/
def shiftedFlagReg (flag result : Byte → Byte) (old : Byte) : VfShiftAlias → Byte
  | .docOrder => result (flag old)
  | .flagWins => flag old
  | .resultWins => result old

/-- A shift of VF writes VF alone, under each of the three readings (R129, R131). -/
theorem RegFile.get_shift_flagReg (v : RegFile) (q : Nibble) (flag result : Byte → Byte) :
    RegFile.get (RegFile.shift v flagReg flag result) q =
      if q = flagReg then shiftedFlagReg flag result (RegFile.get v flagReg) Config.vfShiftAlias
      else RegFile.get v q := by
  by_cases hq : q = flagReg
  · unfold RegFile.shift
    cases Config.vfShiftAlias <;> simp [hq, shiftedFlagReg]
  · rw [if_neg hq, RegFile.get_shift_of_ne v flag result hq hq]

theorem writesReg_of_exec_eq_shift_flagReg {i : Instr} {s : State} {flag result : Byte → Byte} {b : Byte}
    (hexec : exec i s = .next { s with v := s.v.shift flagReg flag result })
    (hb : shiftedFlagReg flag result (s.reg flagReg) Config.vfShiftAlias = b) : WritesReg i s flagReg b :=
  ⟨_, hexec, fun r => hb ▸ s.v.get_shift_flagReg r flag result, rfl⟩

/-! ### The values written, as arithmetic (R126 to R131) -/

theorem byte_add_eq (a b : Byte) : a + b = BitVec.ofNat 8 ((a.toNat + b.toNat) % 256) := by
  bv_omega

theorem byte_sub_eq (a b : Byte) : a - b = BitVec.ofInt 8 ((a.toNat - b.toNat : Int) % 256) := by
  have ha := a.isLt
  have hb := b.isLt
  refine BitVec.eq_of_toNat_eq ?_
  rw [BitVec.toNat_sub, BitVec.toNat_ofInt]
  omega

theorem flagByte_decide (p : Prop) [Decidable p] : flagByte (decide p) = if p then 1 else 0 := by
  simp [flagByte]

theorem toNat_lowBit (b : Byte) : (lowBit b).toNat = b.toNat % 2 := by
  rw [lowBit, BitVec.toNat_and]
  exact Nat.and_one_is_mod _

theorem toNat_highBit (b : Byte) : (highBit b).toNat = b.toNat / 128 := by
  rw [highBit, BitVec.toNat_ushiftRight, Nat.shiftRight_eq_div_pow]

theorem toNat_byte_ushiftRight_one (b : Byte) : (b >>> 1).toNat = b.toNat / 2 := by
  rw [BitVec.toNat_ushiftRight, Nat.shiftRight_eq_div_pow, Nat.pow_one]

theorem toNat_byte_shiftLeft_one (b : Byte) : (b <<< 1).toNat = b.toNat * 2 % 256 := by
  rw [BitVec.toNat_shiftLeft, Nat.shiftLeft_eq, Nat.pow_one]

/-- A byte is the byte of its value: the form in which the statements give a result. -/
theorem byte_eq_ofNat {b : Byte} {n : Nat} (h : b.toNat = n) : b = BitVec.ofNat 8 n := by
  rw [← h, BitVec.ofNat_toNat, BitVec.setWidth_eq]

/-! ### The statements of 42_alu.md -/

/-- Settles O15: each is one register write, of the operation that the library describes bit by bit. -/
theorem bitwiseOperations : Obligations.BitwiseOperations := fun x y _ =>
  ⟨⟨Laws.InRow.orReg x y, _, fun _ _ => BitVec.getLsbD_or, writesReg_of_exec_eq_setReg rfl rfl⟩,
    ⟨Laws.InRow.andReg x y, _, fun _ _ => BitVec.getLsbD_and, writesReg_of_exec_eq_setReg rfl rfl⟩,
    ⟨Laws.InRow.xorReg x y, _, fun _ _ => BitVec.getLsbD_xor, writesReg_of_exec_eq_setReg rfl rfl⟩⟩

/-- Settles O16: the sum and then the carry, both of the operands before. -/
theorem addSetsCarry : Obligations.AddSetsCarry := fun x y _ =>
  ⟨Laws.InRow.addReg x y, writesRegAndFlag_of_exec_eq_setWithFlag rfl (byte_add_eq _ _) (flagByte_decide _)⟩

/-- Settles O17: the difference and then the comparison, both of the operands before. -/
theorem subtractSetsGreaterFlag : Obligations.SubtractSetsGreaterFlag := fun x y _ =>
  ⟨⟨Laws.InRow.sub x y, writesRegAndFlag_of_exec_eq_setWithFlag rfl (byte_sub_eq _ _) (flagByte_decide _)⟩,
    ⟨Laws.InRow.subn x y, writesRegAndFlag_of_exec_eq_setWithFlag rfl (byte_sub_eq _ _) (flagByte_decide _)⟩⟩

/-- Settles O18, by whether the register shifted is VF, and for VF by the three readings. -/
theorem shiftRight : Obligations.ShiftRight := by
  refine fun x y s => ⟨Laws.InRow.shr x y, fun hx => ?_, ?_⟩
  · exact writesRegAndFlag_of_exec_eq_shift rfl hx (byte_eq_ofNat (toNat_byte_ushiftRight_one _))
      (byte_eq_ofNat (toNat_lowBit _))
  · rintro rfl
    refine writesReg_of_exec_eq_shift_flagReg rfl ?_
    cases Config.vfShiftAlias <;> refine byte_eq_ofNat ?_
    case docOrder => exact (toNat_byte_ushiftRight_one _).trans (by rw [toNat_lowBit])
    case flagWins => exact toNat_lowBit _
    case resultWins => exact toNat_byte_ushiftRight_one _

/-- Settles O19, by whether the register shifted is VF, and for VF by the three readings. -/
theorem shiftLeft : Obligations.ShiftLeft := by
  refine fun x y s => ⟨Laws.InRow.shl x y, fun hx => ?_, ?_⟩
  · exact writesRegAndFlag_of_exec_eq_shift rfl hx (byte_eq_ofNat (toNat_byte_shiftLeft_one _))
      (byte_eq_ofNat (toNat_highBit _))
  · rintro rfl
    refine writesReg_of_exec_eq_shift_flagReg rfl ?_
    cases Config.vfShiftAlias <;> refine byte_eq_ofNat ?_
    case docOrder => exact (toNat_byte_shiftLeft_one _).trans (by rw [toNat_highBit]; omega)
    case flagWins => exact toNat_highBit _
    case resultWins => exact toNat_byte_shiftLeft_one _

/-- Settles O13: each is one register write. -/
theorem registerLoads : Obligations.RegisterLoads := fun x y nn _ =>
  ⟨⟨Laws.InRow.ldByte x nn, writesReg_of_exec_eq_setReg rfl rfl⟩,
    ⟨Laws.InRow.ldReg x y, writesReg_of_exec_eq_setReg rfl rfl⟩,
    ⟨Laws.InRow.ldVxDt x, writesReg_of_exec_eq_setReg rfl rfl⟩⟩

/-- Settles O14: one register write, of the sum modulo 256. -/
theorem addImmediateWraps : Obligations.AddImmediateWraps := fun x nn _ =>
  ⟨Laws.InRow.addByte x nn, writesReg_of_exec_eq_setReg rfl (byte_add_eq _ _)⟩

/-- Settles O20: one register write, and the draw counter moves whatever NN is. -/
theorem randomByteIsMasked : Obligations.RandomByteIsMasked :=
  fun x _ s => ⟨_, rfl, fun r => s.reg_setReg x r _, rfl⟩

end Sys2Proof.Machine

/-! ## Index register and memory transfer (43_index_memory.md R140 to R145)

FX33 and FX55 are one store from I on, of their own bytes: that it stores all of them or faults is said once. FX65 is
the one load. -/

namespace Sys2Proof.Machine

/-! ### The values written to I and to memory -/

theorem toNat_indexPlus (i : Addr) (b : Byte) : (indexPlus i b).toNat = (i.toNat + b.toNat) % 4096 :=
  BitVec.toNat_ofNat ..

theorem toNat_glyphAddr (b : Byte) : (glyphAddr b).toNat = (0x050 + b.toNat * 5) % 4096 :=
  BitVec.toNat_ofNat ..

/-- A decimal digit is its byte's value (R143). -/
theorem toNat_ofNat_digit {d : Nat} (h : d < 10) : (BitVec.ofNat 8 d).toNat = d :=
  (BitVec.toNat_ofNat ..).trans (Nat.mod_eq_of_lt (by omega))

/-! ### The store from I on -/

section
variable {i : Instr} {s : State} {bs : List Byte} {n : Nat}

/-- An instruction whose execute step is the store of R143 and R144 stores every byte and no other, where they fit. -/
theorem stores_of_exec_eq_storeAtI (hexec : exec i s = .next (s.storeAtI i bs)) (hlen : bs.length = n + 1)
    (hfit : s.i.toNat + n ≤ 4095) :
    ∃ t, exec i s = .next t ∧ (∀ k, k ≤ n → t.mem.peek (s.i.toNat + k) = bs.getD k 0) ∧
      (∀ a, (a < s.i.toNat ∨ s.i.toNat + n < a) → t.mem.peek a = s.mem.peek a) ∧ t = { s with mem := t.mem } := by
  rcases s.storeAtI_cases i bs with ⟨-, hover⟩ | ⟨m, hm, -, -, hpeek⟩
  · omega
  · refine ⟨_, hm ▸ hexec, fun k hk => ?_, fun a ha => ?_, rfl⟩
    · rw [hpeek, if_pos (by omega), Nat.add_sub_cancel_left]
    · rw [hpeek, if_neg (by omega)]

theorem takesFault_of_exec_eq_storeAtI (hexec : exec i s = .next (s.storeAtI i bs)) (hlen : bs.length = n + 1)
    (hover : s.i.toNat + n > 4095) : TakesFault i s .memoryOutOfRange 4096 := by
  rw [takesFault_iff_raise, hexec]
  rcases s.storeAtI_cases i bs with ⟨hs, -⟩ | ⟨_, -, hfit, -, -⟩
  · rw [hs]
  · omega

end

/-! ### The load from I on -/

theorem exec_loadRegs_of_fits {x : Nibble} {s : State} (hfit : s.i.toNat + x.toNat ≤ 4095) :
    exec (.loadRegs x) s =
      .next { s with v := s.v.setFrom 0 ((List.range (x.toNat + 1)).map fun k => s.mem.peek (s.i.toNat + k)) } := by
  rw [exec, execLoadRegs, s.mem.readBytes_ok _ _ (by omega)]

theorem takesFault_loadRegs_of_gt {x : Nibble} {s : State} (hover : s.i.toNat + x.toNat > 4095) :
    TakesFault (.loadRegs x) s .memoryOutOfRange 4096 := by
  rw [takesFault_iff_raise, exec, execLoadRegs, s.mem.readBytes_error _ _ (Nat.le_of_lt s.i.isLt) (by omega)]

/-- Loading `f 0`, …, `f x` into the registers from V[0] on (R145). -/
theorem RegFile.get_setFrom_zero_map_range (v : RegFile) (x q : Nibble) (f : Nat → Byte) :
    RegFile.get (v.setFrom 0 ((List.range (x.toNat + 1)).map f)) q =
      if q.toNat ≤ x.toNat then f q.toNat else RegFile.get v q := by
  have hx := nibble_lt x
  rw [RegFile.get_setFrom _ _ _ _ (by simpa using hx)]
  by_cases hq : q.toNat ≤ x.toNat
  · simp [hq, Nat.lt_succ_of_le hq]
  · simp [hq]

/-! ### The statements of 43_index_memory.md -/

/-- Settles O22: the store of the three digits, each below 10. -/
theorem bcdStoresDigits : Obligations.BcdStoresDigits := by
  refine fun x s => ⟨Laws.InRow.ldB x, fun hfit => ?_, takesFault_of_exec_eq_storeAtI rfl rfl⟩
  obtain ⟨t, ht, hdigits, hothers, hframe⟩ := stores_of_exec_eq_storeAtI (i := .ldB x) (n := 2) rfl rfl hfit
  have hb : (s.reg x).toNat < 256 := (s.reg x).isLt
  refine ⟨t, ht, ?_, ?_, ?_, hothers, hframe⟩
  · exact (congrArg BitVec.toNat (hdigits 0 (by decide))).trans (toNat_ofNat_digit (by omega))
  · exact (congrArg BitVec.toNat (hdigits 1 (by decide))).trans (toNat_ofNat_digit (by omega))
  · exact (congrArg BitVec.toNat (hdigits 2 (by decide))).trans (toNat_ofNat_digit (by omega))

/-- Settles O23: the store of the registers in order. -/
theorem storeRegisterRange : Obligations.StoreRegisterRange := by
  refine fun x s => ⟨Laws.InRow.storeRegs x, fun hfit => ?_,
    takesFault_of_exec_eq_storeAtI rfl (RegFile.length_upTo s.v x)⟩
  obtain ⟨t, ht, hbytes, hothers, hframe⟩ :=
    stores_of_exec_eq_storeAtI (i := .storeRegs x) rfl (RegFile.length_upTo s.v x) hfit
  exact ⟨t, ht, fun k hk => (hbytes k.toNat hk).trans (s.v.getD_upTo x k hk), hothers, hframe⟩

/-- Settles O24: the load of the registers in order. -/
theorem loadRegisterRange : Obligations.LoadRegisterRange := by
  refine fun x s => ⟨Laws.InRow.loadRegs x, fun hfit => ?_, takesFault_loadRegs_of_gt⟩
  exact ⟨_, exec_loadRegs_of_fits hfit, fun k => s.v.get_setFrom_zero_map_range x k _, rfl⟩

/-- Settles O21, by the values of the two sums modulo 4096. -/
theorem indexRegisterWrites : Obligations.IndexRegisterWrites := fun x nnn s =>
  ⟨⟨Laws.InRow.ldI nnn, _, rfl, rfl, rfl⟩,
    ⟨Laws.InRow.addI x, _, rfl, toNat_indexPlus s.i (s.reg x), rfl⟩,
    ⟨Laws.InRow.ldF x, _, rfl, toNat_glyphAddr (s.reg x), rfl⟩⟩

end Sys2Proof.Machine

/-! ## Display (44_display.md R150 to R153)

DXYN draws the rows it reads onto the framebuffer with no collision yet: what that leaves in each pixel and when it
collides is said once. That a second draw restores the framebuffer follows from the statement of one draw alone. -/

namespace Sys2Proof.Machine

/-! ### The sprite in memory -/

/-- The bytes of a sprite of `rows` rows at address `i`, as DXYN reads them (R151). -/
def spriteRows (m : Memory) (i rows : Nat) : List Byte := (List.range rows).map fun k => m.peek (i + k)

theorem length_spriteRows (m : Memory) (i rows : Nat) : (spriteRows m i rows).length = rows := by
  simp [spriteRows]

theorem getLsbD_spriteRows (m : Memory) (i x0 y0 : Nat) {rows px py : Nat} (h : inSprite x0 y0 rows px py) :
    ((spriteRows m i rows).getD (py - y0) 0).getLsbD (7 - (px - x0)) = spriteBit m i x0 y0 px py := by
  have hrow : py - y0 < rows := by omega
  simp [spriteRows, spriteBit, List.getD_eq_getElem?_getD, hrow]

/-- Where no row is drawn both sides hold, since I is an address (R151). -/
theorem spriteInMemory_iff (i : Addr) (rows : Nat) : spriteInMemory i.toNat rows ↔ i.toNat + rows ≤ 4096 := by
  have hi : i.toNat < 4096 := i.isLt
  unfold spriteInMemory
  omega

/-! ### The canvas that a draw leaves -/

/-- What DXYN draws from column `x0` and row `y0` on, before the collision goes to VF (R151). -/
def State.drawnCanvas (s : State) (x0 y0 rows : Nat) : Canvas :=
  Canvas.drawRows { fb := s.fb, hit := false } x0 y0 (spriteRows s.mem s.i.toNat rows)

/-- A set bit of the sprite falls on a lit pixel inside the clipped area (R152). -/
def State.SpriteCollides (s : State) (x0 y0 rows : Nat) : Prop :=
  ∃ px py, inSprite x0 y0 rows px py ∧ spriteBit s.mem s.i.toNat x0 y0 px py = true ∧ s.fb.pixel px py = true

theorem State.pixel_drawnCanvas (s : State) (x0 : Nat) {y0 rows : Nat} (hrows : y0 + rows ≤ 32) (px py : Nat) :
    (s.drawnCanvas x0 y0 rows).fb.pixel px py =
      (s.fb.pixel px py ^^ (decide (inSprite x0 y0 rows px py) && spriteBit s.mem s.i.toNat x0 y0 px py)) := by
  obtain ⟨hpixel, -⟩ := Canvas.drawRows_spec { fb := s.fb, hit := false } x0 y0 (spriteRows s.mem s.i.toNat rows)
    (by rwa [length_spriteRows])
  rw [State.drawnCanvas, hpixel, length_spriteRows]
  by_cases hin : inSprite x0 y0 rows px py
  · rw [getLsbD_spriteRows s.mem _ x0 y0 hin]
  · simp only [decide_eq_false hin, Bool.false_and]

theorem State.hit_drawnCanvas (s : State) (x0 : Nat) {y0 rows : Nat} (hrows : y0 + rows ≤ 32) :
    (s.drawnCanvas x0 y0 rows).hit = true ↔ s.SpriteCollides x0 y0 rows := by
  obtain ⟨-, hhit⟩ := Canvas.drawRows_spec { fb := s.fb, hit := false } x0 y0 (spriteRows s.mem s.i.toNat rows)
    (by rwa [length_spriteRows])
  rw [State.drawnCanvas, hhit, length_spriteRows, or_iff_right Bool.false_ne_true]
  refine exists₂_congr fun px py => and_congr_right fun hin => ?_
  rw [getLsbD_spriteRows s.mem _ x0 y0 hin]

/-! ### The execute step of DXYN -/

/-- The drawn rows lie above the bottom edge (R151). -/
theorem drawTop_add_drawnRows_le (n : Nibble) (b : Byte) : drawTop b + drawnRows n (drawTop b) ≤ 32 := by
  unfold drawnRows drawTop
  omega

theorem exec_drw_of_fits {x y n : Nibble} {s : State}
    (hfit : spriteInMemory s.i.toNat (drawnRows n (drawTop (s.reg y)))) :
    let c := s.drawnCanvas (drawColumn (s.reg x)) (drawTop (s.reg y)) (drawnRows n (drawTop (s.reg y)))
    exec (.drw x y n) s =
      .next { s with v := s.v.set flagReg (if c.hit then 1 else 0), fb := c.fb, redraw := true } := by
  rw [spriteInMemory_iff] at hfit
  rw [exec, execDrw, s.mem.readBytes_ok _ _ hfit]
  rfl

theorem takesFault_drw_of_not_fits {x y n : Nibble} {s : State}
    (hover : ¬ spriteInMemory s.i.toNat (drawnRows n (drawTop (s.reg y)))) :
    TakesFault (.drw x y n) s .memoryOutOfRange 4096 := by
  rw [spriteInMemory_iff, Nat.not_le] at hover
  rw [takesFault_iff_raise, exec, execDrw, s.mem.readBytes_error _ _ (Nat.le_of_lt s.i.isLt) hover]

/-! ### The statements of 44_display.md -/

/-- Settles O25: every pixel of the dark framebuffer is dark. -/
theorem clearScreen : Obligations.ClearScreen :=
  fun _ => ⟨Laws.InRow.cls, _, rfl, fun x y _ _ => Framebuffer.pixel_dark x y, rfl, rfl⟩

/-- Settles O26, by whether the rows lie in memory: if they do, the canvas of the draw is the new framebuffer, and VF
its collision. -/
theorem drawSprite : Obligations.DrawSprite := by
  rintro x y n s x0 y0 rows rfl rfl rfl
  refine ⟨Laws.InRow.drw x y n, fun hfit => ?_, takesFault_drw_of_not_fits⟩
  have hrows := drawTop_add_drawnRows_le n (s.reg y)
  have hhit := s.hit_drawnCanvas (drawColumn (s.reg x)) hrows
  refine ⟨_, exec_drw_of_fits hfit, s.pixel_drawnCanvas _ hrows, fun hc => ?_, fun hc => ?_,
    fun r hr => s.v.get_set_of_ne _ hr, rfl, rfl⟩
  · exact (s.v.get_set ..).trans ((if_pos rfl).trans (if_pos (hhit.2 hc)))
  · exact (s.v.get_set ..).trans ((if_pos rfl).trans (if_neg (mt hhit.1 hc)))

/-- Settles O27: each draw is O26's, with the same sprite bit in each pixel, so the second XOR takes back the first; a
set bit finds its pixel lit by then exactly where it was dark before. -/
theorem drawTwiceRestores : Obligations.DrawTwiceRestores := by
  intro x y x' y' n s t t' x0 y0 rows hx hy hrows hfit hdraw hfb hmem hi hx' hy'
  obtain ⟨-, hfirst, -⟩ := drawSprite x y n s x0 y0 rows hx hy hrows
  obtain ⟨t₀, ht₀, hpixel, -, -, -, -, hframe⟩ := hfirst hfit
  obtain rfl : t = t₀ := Host.Outcome.next.inj (hdraw.symm.trans ht₀)
  have hmem' : t'.mem = s.mem := by rw [hmem, hframe]
  have hi' : t'.i = s.i := by rw [hi, hframe]
  obtain ⟨-, hsecond, -⟩ := drawSprite x' y' n t' x0 y0 rows hx'.symm hy'.symm hrows
  rw [hmem', hi', hfb] at hsecond
  obtain ⟨u, hu, hpixel', hone, hzero, -, -, -⟩ := hsecond hfit
  refine ⟨u, hu, Framebuffer.ext_pixel fun px py _ _ => ?_, ?_⟩
  · rw [hpixel', hpixel, Bool.xor_assoc, Bool.xor_self, Bool.xor_false]
  · have hlit : (∃ px py, inSprite x0 y0 rows px py ∧ spriteBit s.mem s.i.toNat x0 y0 px py = true ∧
          t.fb.pixel px py = true) ↔
        ∃ px py, inSprite x0 y0 rows px py ∧ spriteBit s.mem s.i.toNat x0 y0 px py = true ∧
          s.fb.pixel px py = false :=
      exists₂_congr fun px py => and_congr_right fun hin => and_congr_right fun hbit => by
        rw [hpixel, decide_eq_true hin, hbit, Bool.and_self, Bool.xor_true, Bool.not_eq_true']
    rw [← hlit]
    refine ⟨fun hflag => ?_, hone⟩
    by_contra hnone
    exact absurd ((hzero hnone).symm.trans hflag) (by decide)

end Sys2Proof.Machine

/-! ## Timers and key wait (45_timer_keypad.md R160 to R163)

What a tick that executes FX15 leaves in DT, and one that executes FX07 in its register, is said once each; R245 is the
two in a row. -/

namespace Sys2Proof.Machine

/-! ### The instructions of 45_timer_keypad.md -/

/-- Settles O28. -/
theorem timerWrites : Obligations.TimerWrites := fun x _ =>
  ⟨⟨Laws.InRow.ldDtVx x, _, rfl, rfl, rfl⟩, ⟨Laws.InRow.ldStVx x, _, rfl, rfl, rfl⟩⟩

/-- Settles O29. -/
theorem keyWaitEnters : Obligations.KeyWaitEnters := fun x _ =>
  ⟨Laws.InRow.ldVxK x, _, rfl, rfl, rfl⟩

/-! ### The delay timer over two ticks (R245) -/

/-- One step of a timer is subtraction that stops at 0 (R210). -/
theorem toNat_timerStep (b : Byte) : (timerStep b).toNat = b.toNat - 1 := by
  unfold timerStep
  split <;> bv_omega

/-- Phase 6 leaves every register alone (R215). -/
@[simp] theorem State.reg_signalRedraw (s : State) (r : Nibble) : s.signalRedraw.reg r = s.reg r :=
  congrArg (RegFile.get · r) s.signalRedraw_v

/-- What a tick that executes `i` leaves is what `exec` of `i` leaves, after phase 6. -/
theorem exec_of_executes {s t : State} {i : Instr} (hex : s.Executes i) (h : step s = .next t) :
    ∃ u, exec i { s.beforeFetch with pc := s.pc + 2 } = .next u ∧ t = u.signalRedraw := by
  obtain ⟨u, hu, hstep⟩ := step_of_executes hex
  exact ⟨u, hu, Host.Outcome.next.inj (h.symm.trans hstep)⟩

/-- A tick that executes FX15 leaves V[x] in DT: its countdown came before (R162, R209). -/
theorem dt_of_executes_ldDtVx {s t : State} {x : Nibble} (hex : s.Executes (.ldDtVx x))
    (h : step s = .next t) : t.dt = s.beforeFetch.reg x := by
  obtain ⟨u, hu, rfl⟩ := exec_of_executes hex h
  cases hu
  exact State.signalRedraw_dt _

/-- A tick that executes FX07 leaves in V[y] the delay timer as its own countdown left it (R160, R210). -/
theorem reg_of_executes_ldVxDt {s t : State} {y : Nibble} (hex : s.Executes (.ldVxDt y))
    (h : step s = .next t) : t.reg y = timerStep s.dt := by
  obtain ⟨u, hu, rfl⟩ := exec_of_executes hex h
  cases hu
  rw [State.reg_signalRedraw, State.reg_setReg, if_pos rfl, State.beforeFetch_dt]

/-- Settles O52: FX15 stores n after its tick's countdown, so only the next tick's countdown comes before FX07. -/
theorem delayTimerReadBackOneLess : Obligations.DelayTimerReadBackOneLess := by
  intro x y s t u hset hst hget htu
  rw [reg_of_executes_ldVxDt hget htu, dt_of_executes_ldDtVx hset hst, toNat_timerStep]

end Sys2Proof.Machine

/-! ## The tick (60_exceptions.md R200 to R218, R228 to R230)

`TickEnds` says once what a tick can leave, with the cause of every fault; each statement about the tick is read off its
four cases. -/

namespace Sys2Proof.Machine

/-! ### Phases 2 and 3 -/

/-- One more event about a key decides what the list leaves in it (R211). -/
theorem keyAfter_append_singleton (k : Nibble) (old : Bool) (es : List Event) (e : Event) :
    keyAfter k old (es ++ [e]) =
      if e = .keyDown k then true else if e = .keyUp k then false else keyAfter k old es := by
  unfold keyAfter
  rw [List.reverse_append, List.reverse_singleton, List.singleton_append, List.find?_cons]
  by_cases hdown : e = .keyDown k
  · simp [hdown]
  · by_cases hup : e = .keyUp k
    · simp [hup]
    · rw [beq_false_of_ne hdown, beq_false_of_ne hup, if_neg hdown, if_neg hup]
      rfl

/-- What one event leaves in a key (R211). -/
theorem State.keyPressed_applyEvent (s : State) (e : Event) (k : Nibble) :
    (s.applyEvent e).keyPressed k =
      if e = .keyDown k then true else if e = .keyUp k then false else s.keyPressed k := by
  cases e with
  | keyDown j => simp [State.applyEvent, State.keyPressed_setKey, eq_comm (a := k)]
  | keyUp j => simp [State.applyEvent, State.keyPressed_setKey, eq_comm (a := k)]
  | quit => rfl

/-- The events applied in order leave each key as the last event about it says (R211). -/
theorem State.keyPressed_foldl_applyEvent (s : State) (es : List Event) (k : Nibble) :
    (es.foldl State.applyEvent s).keyPressed k = keyAfter k (s.keyPressed k) es := by
  induction es using List.reverseRecOn with
  | nil => rfl
  | append_singleton es e ih =>
    rw [List.foldl_append, List.foldl_cons, List.foldl_nil, State.keyPressed_applyEvent, ih, keyAfter_append_singleton]

/-- Phase 2 leaves each key as the last event about it says (R211). -/
theorem State.keyPressed_afterInput (s : State) (k : Nibble) :
    s.afterInput.keyPressed k = keyAfter k (s.keyPressed k) s.events :=
  s.countdown.keyPressed_foldl_applyEvent s.events k

/-- Phase 2 neither reads nor writes the fields that the end of a wait writes. -/
theorem State.foldl_applyEvent_with (s : State) (es : List Event) (v : RegFile) (e : ExecState) (n : Nat) :
    es.foldl State.applyEvent { s with v := v, exec := e, waitDraws := n } =
      { es.foldl State.applyEvent s with v := v, exec := e, waitDraws := n } := by
  induction es generalizing s with
  | nil => rfl
  | cons a es ih =>
    have hone : State.applyEvent { s with v := v, exec := e, waitDraws := n } a =
        { s.applyEvent a with v := v, exec := e, waitDraws := n } := by
      cases a <;> rfl
    rw [List.foldl_cons, List.foldl_cons, hone, ih]

/-- Phases 1 and 2 neither read nor write the fields that the end of a wait writes. -/
theorem State.afterInput_with (s : State) (v : RegFile) (e : ExecState) (n : Nat) :
    ({ s with v := v, exec := e, waitDraws := n } : State).afterInput =
      { s.afterInput with v := v, exec := e, waitDraws := n } :=
  congrArg (fun t : State => { t with inputs := s.inputs.tail }) (s.countdown.foldl_applyEvent_with s.events v e n)

/-- Phase 3 does nothing, or ends a wait with a key that went down in the tick (R212). -/
theorem State.beforeFetch_cases (s : State) :
    (s.beforeFetch = s.afterInput ∧ ((∀ d, s.exec ≠ .waitingForKey d) ∨ ¬ ∃ k, .keyDown k ∈ s.events)) ∨
    ∃ d k n, s.exec = .waitingForKey d ∧ .keyDown k ∈ s.events ∧
      s.beforeFetch = { s.afterInput.endWait d k with waitDraws := n } := by
  rcases s.afterInput.completeWait_cases (keyDowns s.events) with ⟨h, hwhy⟩ | ⟨d, k, n, hd, hk, h⟩
  · refine .inl ⟨h, hwhy.imp (by simp) ?_⟩
    rintro hnil ⟨k, hk⟩
    simpa [hnil] using mem_keyDowns.2 hk
  · exact .inr ⟨d, k, n, by simpa using hd, mem_keyDowns.1 hk, h⟩

/-- A tick that reaches phase 5 began Running or ended a wait (R212, R213). -/
theorem State.exec_of_beforeFetch_running {s : State} (h : s.beforeFetch.exec = .running) :
    s.exec = .running ∨ (∃ d, s.exec = .waitingForKey d) ∧ ∃ k, .keyDown k ∈ s.events := by
  rcases s.beforeFetch_cases with ⟨heq, -⟩ | ⟨d, k, n, hd, hk, -⟩
  · exact .inl (by rwa [heq, State.afterInput_exec] at h)
  · exact .inr ⟨⟨d, hd⟩, k, hk⟩

/-- Phase 3 has done nothing where phase 4 finds the machine not Running (R212, R213). -/
theorem State.beforeFetch_of_not_running {s : State} (h : s.beforeFetch.exec ≠ .running) :
    s.beforeFetch = s.afterInput := by
  rcases s.beforeFetch_cases with ⟨heq, -⟩ | ⟨d, k, n, -, -, heq⟩
  · exact heq
  · exact absurd (by rw [heq]; rfl) h

/-- A tick of a machine that has not stopped and without Quit goes on to phase 4 (R209). -/
theorem step_of_not_quit {s : State} (hs : s.exec ≠ .stopped) (hq : .quit ∉ s.events) :
    step s = s.beforeFetch.dispatch := by
  rw [step, State.tick, if_neg hs, if_neg (by simpa using hq)]

/-- A tick that runs no instruction is phases 1, 2 and 6 (R213, R217). -/
theorem step_of_not_running {s : State} (hs : s.exec ≠ .stopped) (hq : .quit ∉ s.events)
    (hr : s.beforeFetch.exec ≠ .running) : step s = .next s.afterInput.signalRedraw := by
  rw [step_of_not_quit hs hq, State.dispatch, if_neg hr, State.beforeFetch_of_not_running hr]

/-! ### Why an execute step faults (R200) -/

section
variable {i : Instr} {s t : State} {kind kind' : FaultKind} {word : Word} {info info' target : Nat}

/-- An execute step that has not stopped the machine took no fault (R201). -/
theorem exec_ne_raise (h : exec i s = .next t) (ht : t.exec ≠ .stopped) :
    exec i s ≠ .next (s.raise kind word info) := by
  rintro hraise
  obtain rfl : t = s.raise kind word info := Host.Outcome.next.inj (h.symm.trans hraise)
  exact ht rfl

/-- An instruction takes one fault at most. -/
theorem TakesFault.unique (h : TakesFault i s kind info) (h' : exec i s = .next (s.raise kind' (encode i) info')) :
    kind' = kind ∧ info' = info := by
  have hfault := congrArg State.fault (Host.Outcome.next.inj (h'.symm.trans (takesFault_iff_raise.1 h)))
  simpa using hfault

/-- The skip of R110 takes `PcOutOfRange` alone, where the address `target` that it skips to does not exist. -/
theorem cause_of_skipIf {c : Bool} (hexec : exec i s = .next (s.skipIf i c)) (htarget : s.pc.toNat + 2 = target)
    (hs : s.exec ≠ .stopped) (h : exec i s = .next (s.raise kind (encode i) info)) :
    kind = .pcOutOfRange ∧ target > 4095 ∧ info = target := by
  subst htarget
  rcases s.skipIf_cases i c with ⟨hskip, -, hover⟩ | ⟨hskip, -⟩ | ⟨hskip, -⟩ <;> rw [hskip] at hexec
  · obtain ⟨hkind, hinfo⟩ := (takesFault_iff_raise.2 hexec).unique h
    exact ⟨hkind, hover, hinfo⟩
  · exact absurd h (exec_ne_raise hexec hs)
  · exact absurd h (exec_ne_raise hexec hs)

/-- A key skip takes `KeyOutOfRange` where the register names no key, and otherwise what its skip takes (R115). -/
theorem cause_of_keySkip {b : Byte} {c : Nibble → Bool}
    (hkey : ∀ k : Nibble, b.toNat = k.toNat → exec i s = .next (s.skipIf i (c k)))
    (hout : b.toNat > 15 → TakesFault i s .keyOutOfRange b.toNat) (htarget : s.pc.toNat + 2 = target)
    (hs : s.exec ≠ .stopped) (h : exec i s = .next (s.raise kind (encode i) info)) :
    (kind = .keyOutOfRange ∧ b.toNat > 15 ∧ info = b.toNat) ∨
      (kind = .pcOutOfRange ∧ b.toNat ≤ 15 ∧ target > 4095 ∧ info = target) := by
  by_cases hb : b.toNat > 15
  · obtain ⟨hkind, hinfo⟩ := (hout hb).unique h
    exact .inl ⟨hkind, hb, hinfo⟩
  · have hk : b.toNat = (BitVec.ofNat 4 b.toNat).toNat := by
      rw [BitVec.toNat_ofNat, Nat.mod_eq_of_lt (by omega)]
    obtain ⟨hkind, hpc, hinfo⟩ := cause_of_skipIf (hkey _ hk) htarget hs h
    exact .inr ⟨hkind, by omega, hpc, hinfo⟩

/-- The store from I on takes `MemoryOutOfRange` alone (R143, R144). -/
theorem cause_of_storeAtI {bs : List Byte} {a : Addr} {n : Nat} (hexec : exec i s = .next (s.storeAtI i bs))
    (hlen : bs.length = n + 1) (ha : s.i = a) (hs : s.exec ≠ .stopped)
    (h : exec i s = .next (s.raise kind (encode i) info)) :
    kind = .memoryOutOfRange ∧ info = 4096 ∧ a.toNat + n > 4095 := by
  subst ha
  by_cases hfit : s.i.toNat + n ≤ 4095
  · obtain ⟨t, ht, -, -, hframe⟩ := stores_of_exec_eq_storeAtI hexec hlen hfit
    exact absurd h (exec_ne_raise ht (by rw [hframe]; exact hs))
  · have hover := Nat.lt_of_not_le hfit
    obtain ⟨hkind, hinfo⟩ := (takesFault_of_exec_eq_storeAtI hexec hlen hover).unique h
    exact ⟨hkind, hinfo, hover⟩

end

/-- The state from which phase 5 executes its instruction: PC is past the word (R12, R214). -/
abbrev State.fetched (s : State) : State := { s.beforeFetch with pc := s.pc + 2 }

/-- A fault of the instruction that a tick executes has the cause of that instruction's Faults line (R200). -/
theorem execFaultCause_of_raise {s : State} {i : Instr} {kind : FaultKind} {info : Nat} (hex : s.Executes i)
    (h : exec i s.fetched = .next (s.fetched.raise kind (encode i) info)) : ExecFaultCause s kind info i := by
  obtain ⟨-, hrun, hfetch, -⟩ := hex
  have hs : s.fetched.exec ≠ .stopped := by simp [hrun]
  have htarget : s.fetched.pc.toNat + 2 = s.pc.toNat + 4 := congrArg (· + 2) (addr_toNat_add_two hfetch)
  have hi : s.fetched.i = s.i := s.beforeFetch_i
  have hsp : s.fetched.sp = s.sp := s.beforeFetch_sp
  cases i
  case call nnn =>
    by_cases h15 : s.fetched.sp = 15
    · obtain ⟨hkind, hinfo⟩ := (takesFault_call_of_sp_eq nnn h15).unique h
      exact ⟨hkind, by rw [← hsp, h15]; rfl, hinfo⟩
    · exact absurd h (exec_ne_raise (exec_call_of_sp_ne nnn h15) hs)
  case ret =>
    by_cases h0 : s.fetched.sp = 0
    · obtain ⟨hkind, hinfo⟩ := (takesFault_ret_of_sp_eq h0).unique h
      exact ⟨hkind, by rw [← hsp, h0]; rfl, hinfo⟩
    · exact absurd h (exec_ne_raise (exec_ret_of_sp_ne h0) hs)
  case seByte x nn => exact cause_of_skipIf rfl htarget hs h
  case sneByte x nn => exact cause_of_skipIf rfl htarget hs h
  case seReg x y => exact cause_of_skipIf rfl htarget hs h
  case sneReg x y => exact cause_of_skipIf rfl htarget hs h
  case skp x =>
    exact cause_of_keySkip (b := s.fetched.reg x) (fun _ => exec_skp_of_key) takesFault_skp_of_gt htarget hs h
  case sknp x =>
    exact cause_of_keySkip (b := s.fetched.reg x) (fun _ => exec_sknp_of_key) takesFault_sknp_of_gt htarget hs h
  case drw x y n =>
    by_cases hfit : spriteInMemory s.fetched.i.toNat (drawnRows n (drawTop (s.fetched.reg y)))
    · exact absurd h (exec_ne_raise (exec_drw_of_fits hfit) hs)
    · obtain ⟨hkind, hinfo⟩ := (takesFault_drw_of_not_fits hfit).unique h
      exact ⟨hkind, hinfo, hi ▸ hfit⟩
  case ldB x => exact cause_of_storeAtI rfl rfl hi hs h
  case storeRegs x => exact cause_of_storeAtI rfl (RegFile.length_upTo _ x) hi hs h
  case loadRegs x =>
    by_cases hfit : s.fetched.i.toNat + x.toNat ≤ 4095
    · exact absurd h (exec_ne_raise (exec_loadRegs_of_fits hfit) hs)
    · have hover := Nat.lt_of_not_le hfit
      obtain ⟨hkind, hinfo⟩ := (takesFault_loadRegs_of_gt hover).unique h
      exact ⟨hkind, hinfo, hi ▸ hover⟩
  case ldVxK x => exact absurd h (exec_ne_raise rfl nofun)
  all_goals exact absurd h (exec_ne_raise rfl hs)

/-! ### What a tick can leave -/

/-- The events of R200 that set a fault record in a tick, with its kind, word and info. -/
def State.FaultCause (s : State) (kind : FaultKind) (word : Option Word) (info : Nat) : Prop :=
  (s.pc.toNat = 4095 ∧ kind = .memoryOutOfRange ∧ word = none ∧ info = 4096) ∨
  (s.pc.toNat = 4094 ∧ kind = .pcOutOfRange ∧ word = none ∧ info = 4096) ∨
  (s.pc.toNat + 2 ≤ 4095 ∧ decodeWord s.wordAtPc = none ∧ kind = .unimplementedOpcode ∧ word = some s.wordAtPc ∧
    info = s.wordAtPc.toNat) ∨
  (∃ i, s.Executes i ∧ word = some s.wordAtPc ∧ ExecFaultCause s kind info i)

/-- What a tick of a machine that has not stopped can leave. -/
inductive TickEnds (s : State) : State → Prop
  /-- Quit ends the tick after phase 2 (R211) -/
  | quit (hq : .quit ∈ s.events) : TickEnds s { s.afterInput with exec := .stopped }
  /-- the machine is not Running in phase 4, and no instruction runs (R213, R217) -/
  | blocked (hq : .quit ∉ s.events) (hr : s.beforeFetch.exec ≠ .running) : TickEnds s s.afterInput.signalRedraw
  /-- phase 5 takes a fault, which leaves all else as phases 1 to 3 left it (R200 to R203) -/
  | fault (hq : .quit ∉ s.events) (hr : s.beforeFetch.exec = .running) {kind : FaultKind} {word : Option Word}
      {info : Nat} (hcause : s.FaultCause kind word info) : TickEnds s (s.beforeFetch.raiseInFetch kind word info)
  /-- the instruction completes, and phase 6 follows (R214, R215) -/
  | completes {i : Instr} {u : State} (hex : s.Executes i) (hu : exec i s.fetched = .next u)
      (hfault : u.fault = s.fault)
      (hexec : u.exec = .running ∨ ∃ x, i = .ldVxK x ∧ u.exec = .waitingForKey x) : TickEnds s u.signalRedraw

/-- A fault of the execute step takes back the fetch's advance of PC (R202). -/
theorem State.raise_fetched (s : State) (kind : FaultKind) (word : Word) (info : Nat) :
    s.fetched.raise kind word info = s.beforeFetch.raiseInFetch kind (some word) info := by
  rw [State.raise, BitVec.add_sub_cancel, ← s.beforeFetch_pc]

/-- Phases 1 to 3 leave the word at PC alone. -/
theorem State.wordAtPc_beforeFetch (s : State) : s.beforeFetch.wordAtPc = s.wordAtPc := by
  rw [State.wordAtPc, State.beforeFetch_mem, State.beforeFetch_pc, State.wordAtPc]

/-- A tick that executes an instruction takes that instruction's fault, or completes it. -/
theorem tickEnds_of_executes {s u : State} {i : Instr} (hex : s.Executes i) (hu : exec i s.fetched = .next u) :
    TickEnds s u.signalRedraw := by
  have ⟨hq, hr, _, hdecode⟩ := hex
  rcases exec_fault_or_completes hu with ⟨kind, info, rfl⟩ | ⟨hfault, hexec⟩
  · have hcause := execFaultCause_of_raise hex hu
    rw [encodeOfDecode _ _ hdecode, State.raise_fetched, State.signalRedraw_raiseInFetch]
    exact .fault hq hr (.inr (.inr (.inr ⟨i, hex, rfl, hcause⟩)))
  · exact .completes hex hu (hfault.trans s.beforeFetch_fault) (hexec.imp_left (·.trans hr))

/-- Phase 5 takes a fault of the fetch or of the decoding, or has an instruction to execute (R204, R214). -/
theorem State.fetchExecute_fault_or_executes {s u : State} (hq : .quit ∉ s.events)
    (hr : s.beforeFetch.exec = .running) (hu : s.beforeFetch.fetchExecute = .next u) :
    (∃ kind word info, s.FaultCause kind word info ∧ u = s.beforeFetch.raiseInFetch kind word info) ∨
    ∃ i, s.Executes i := by
  obtain ⟨hread, hadvance, hopcode⟩ := s.beforeFetch.fetchExecute_faults
  rw [State.beforeFetch_pc] at hread hadvance hopcode
  rw [State.wordAtPc_beforeFetch, hu] at hopcode
  rw [hu] at hread hadvance
  have hlt : s.pc.toNat < 4096 := s.pc.isLt
  rcases (by omega : s.pc.toNat = 4095 ∨ s.pc.toNat = 4094 ∨ s.pc.toNat + 2 ≤ 4095) with hpc | hpc | hpc
  · exact .inl ⟨_, _, _, .inl ⟨hpc, rfl, rfl, rfl⟩, Host.Outcome.next.inj (hread hpc)⟩
  · exact .inl ⟨_, _, _, .inr (.inl ⟨hpc, rfl, rfl, rfl⟩), Host.Outcome.next.inj (hadvance hpc)⟩
  · cases hdecode : decodeWord s.wordAtPc with
    | none =>
      exact .inl ⟨_, _, _, .inr (.inr (.inl ⟨hpc, hdecode, rfl, rfl, rfl⟩)),
        Host.Outcome.next.inj (hopcode hpc hdecode)⟩
    | some i => exact .inr ⟨i, hq, hr, hpc, hdecode⟩

/-- Every tick that answers a next state ends in one of the four ways. -/
theorem step_ends {s t : State} (h : step s = .next t) : s.exec ≠ .stopped ∧ TickEnds s t := by
  obtain ⟨hs, hcases⟩ := step_cases h
  refine ⟨hs, ?_⟩
  rcases hcases with ⟨hq, rfl⟩ | ⟨hq, ⟨hr, rfl⟩ | ⟨hr, u, hu, rfl⟩⟩
  · exact .quit hq
  · rw [State.beforeFetch_of_not_running hr]
    exact .blocked hq hr
  · rcases State.fetchExecute_fault_or_executes hq hr hu with ⟨kind, word, info, hcause, rfl⟩ | ⟨i, hex⟩
    · rw [State.signalRedraw_raiseInFetch]
      exact .fault hq hr hcause
    · obtain ⟨u', hu', heq⟩ := exec_of_executes hex h
      rw [heq]
      exact tickEnds_of_executes hex hu'

/-! ### Faults, EXEC and the end of a run -/

/-- Settles O41: the one way a tick changes FAULT. -/
theorem faultsArePrecise : Obligations.FaultsArePrecise := by
  intro s t h hne
  obtain ⟨-, hends⟩ := step_ends h
  cases hends with
  | quit hq => exact absurd s.afterInput_fault hne
  | blocked hq hr => simp at hne
  | fault hq hr hcause => exact ⟨rfl, s.beforeFetch_pc, rfl, _, rfl, congrArg some s.beforeFetch_pc⟩
  | completes hex hu hfault hexec => simp [hfault] at hne

/-- Settles O42: the fault that a tick takes carries its cause. -/
theorem onlyListedEventsFault : Obligations.OnlyListedEventsFault := by
  intro s t r h hne hr
  obtain ⟨-, hends⟩ := step_ends h
  cases hends with
  | quit hq => exact absurd s.afterInput_fault hne
  | blocked hq hr => simp at hne
  | fault hq hr' hcause =>
    cases hr
    exact ⟨_, rfl, hcause⟩
  | completes hex hu hfault hexec => simp [hfault] at hne

/-- Settles O39, by the ways a tick can end. -/
theorem execTransitions : Obligations.ExecTransitions := by
  intro s t h
  obtain ⟨-, hends⟩ := step_ends h
  cases hends with
  | quit hq => exact .inr (.inr (.inr (.inl ⟨hq, rfl, s.afterInput_fault⟩)))
  | blocked hq hr => exact .inl (by simp)
  | fault hq hr hcause => exact .inr (.inr (.inr (.inr ⟨hq, hr, rfl, rfl⟩)))
  | completes hex hu hfault hexec =>
    rw [State.signalRedraw_exec]
    rcases hexec with hrun | ⟨x, rfl, hwait⟩
    · obtain ⟨-, hr, -⟩ := hex
      rcases State.exec_of_beforeFetch_running hr with hs | ⟨hd, hk⟩
      · exact .inl (hrun.trans hs.symm)
      · exact .inr (.inr (.inl ⟨hd, hk, hrun⟩))
    · exact .inr (.inl ⟨x, hwait, hex⟩)

/-- A machine that has completed its instruction has not stopped. -/
theorem ne_stopped_of_completes {i : Instr} {u : State}
    (h : u.exec = .running ∨ ∃ x, i = .ldVxK x ∧ u.exec = .waitingForKey x) : u.exec ≠ .stopped := by
  rcases h with h | ⟨x, -, h⟩ <;> simp [h]

/-- Settles O43, by the ways a tick can end: Quit stops without a fault, a fault stops with one, and the other two do
not stop. -/
theorem runEndsByQuitOrFault : Obligations.RunEndsByQuitOrFault := by
  intro s t hnone h
  obtain ⟨hs, hends⟩ := step_ends h
  unfold State.exitStatus
  cases hends with
  | quit hq => simp [hq, hnone]
  | blocked hq hr => simp [hq, hs, hnone]
  | fault hq hr hcause => simp [hq]
  | completes hex hu hfault hexec =>
    obtain ⟨hq, -⟩ := hex
    simp [hq, hfault, hnone, ne_stopped_of_completes hexec]

/-! ### Timers and keys -/

theorem exec_dt {i : Instr} {s t : State} (h : exec i s = .next t) :
    t.dt = s.dt ∨ ∃ x, i = .ldDtVx x ∧ t.dt = s.reg x := by
  obtain ⟨-, hdt, -⟩ := otherStateWrittenAsListed i s t h
  refine or_iff_not_imp_left.2 fun hne => ?_
  obtain ⟨x, rfl⟩ := hdt hne
  cases h
  exact ⟨x, rfl, rfl⟩

theorem exec_st {i : Instr} {s t : State} (h : exec i s = .next t) :
    t.st = s.st ∨ ∃ x, i = .ldStVx x ∧ t.st = s.reg x := by
  obtain ⟨-, -, hst, -⟩ := otherStateWrittenAsListed i s t h
  refine or_iff_not_imp_left.2 fun hne => ?_
  obtain ⟨x, rfl⟩ := hst hne
  cases h
  exact ⟨x, rfl, rfl⟩

/-- Settles O34: phase 1 counts, and of the ways a tick can end only a completed FX15 or FX18 writes a timer. -/
theorem timersCountDown : Obligations.TimersCountDown := by
  intro s t h
  have hcount : s.beforeFetch.dt.toNat = s.dt.toNat - 1 ∧ s.beforeFetch.st.toNat = s.st.toNat - 1 := by
    simp [toNat_timerStep]
  refine ⟨hcount, ?_⟩
  obtain ⟨-, hends⟩ := step_ends h
  cases hends with
  | quit hq => simp [toNat_timerStep]
  | blocked hq hr => simp [toNat_timerStep]
  | fault hq hr hcause => simp [toNat_timerStep]
  | completes hex hu hfault hexec =>
    rw [State.signalRedraw_dt, State.signalRedraw_st, ← hcount.1, ← hcount.2]
    constructor
    · rcases exec_dt hu with hdt | ⟨x, rfl, hdt⟩
      · exact .inl (congrArg BitVec.toNat hdt)
      · exact .inr ⟨x, hex, hdt⟩
    · rcases exec_st hu with hst | ⟨x, rfl, hst⟩
      · exact .inl (congrArg BitVec.toNat hst)
      · exact .inr ⟨x, hex, hst⟩

/-- KEY ends a tick as phase 2 left it (R31, R211). -/
theorem step_key {s t : State} (h : step s = .next t) : t.key = s.afterInput.key := by
  obtain ⟨-, hends⟩ := step_ends h
  cases hends with
  | quit hq => rfl
  | blocked hq hr => simp
  | fault hq hr hcause => simp
  | completes hex hu hfault hexec =>
    obtain ⟨-, -, -, -, hkey, -⟩ := otherStateWrittenAsListed _ _ _ hu
    simp [hkey]

/-- Settles O35: the keys by phase 2's events in order, Quit by the one way of ending that has it. -/
theorem inputSynchronisation : Obligations.InputSynchronisation := by
  intro s t h
  have hkeys (k : Nibble) : t.keyPressed k = keyAfter k (s.keyPressed k) s.events := by
    rw [← s.keyPressed_afterInput, State.keyPressed, step_key h, State.keyPressed]
  refine ⟨hkeys, fun hquit => ?_⟩
  obtain ⟨-, hends⟩ := step_ends h
  cases hends with
  | quit hq =>
    obtain ⟨key, hkey⟩ := s.afterInput_eq
    rw [hkey]
    exact ⟨rfl, rfl⟩
  | blocked hq hr => exact absurd hquit hq
  | fault hq hr hcause => exact absurd hquit hq
  | completes hex hu hfault hexec =>
    obtain ⟨hq, -⟩ := hex
    exact absurd hquit hq

/-! ### Waiting and Paused -/

/-- Phase 3 does nothing for a machine that does not wait, or for which no key went down (R212). -/
theorem State.beforeFetch_of_idle {s : State}
    (h : (∀ d, s.exec ≠ .waitingForKey d) ∨ ¬ ∃ k, .keyDown k ∈ s.events) : s.beforeFetch = s.afterInput := by
  rcases s.beforeFetch_cases with ⟨heq, -⟩ | ⟨d, k, n, hd, hk, -⟩
  · exact heq
  · exact h.elim (fun hnot => absurd hd (hnot d)) (absurd ⟨k, hk⟩)

/-- Phases 1 and 2 do not see what the end of a wait writes: ending it before the tick comes to the same (R212). -/
theorem State.beforeFetch_of_wait_ended (s : State) (d k : Nibble) (n : Nat) :
    ({ s.endWait d k with waitDraws := n } : State).beforeFetch = { s.afterInput.endWait d k with waitDraws := n } := by
  rw [State.beforeFetch_of_not_waiting _ (by simp)]
  refine (s.afterInput_with (RegFile.set s.v d (k.setWidth 8)) .running n).trans ?_
  rw [State.endWait, State.setReg, State.afterInput_v]

/-- Settles O36: the tick from the state with the wait ended has the same state before the fetch. -/
theorem waitCompletes : Obligations.WaitCompletes := by
  intro s d hwait hq
  have hs : s.exec ≠ .stopped := by simp [hwait]
  constructor
  · intro hdown
    rcases s.beforeFetch_cases with ⟨-, hidle | hnone⟩ | ⟨d', k, n, hd, hk, heq⟩
    · exact absurd hwait (hidle d)
    · exact absurd hdown hnone
    · obtain rfl : d = d' := by simpa [hwait] using hd
      refine ⟨k, { s.endWait d k with waitDraws := n }, hk, fun r => ?_, rfl, ?_⟩
      · rw [BitVec.ofNat_toNat]
        exact RegFile.get_set ..
      · rw [step_of_not_quit hs hq, heq, ← s.beforeFetch_of_wait_ended d k n]
        exact (step_of_not_quit (s := { s.endWait d k with waitDraws := n }) (by simp) hq).symm
  · intro hnone
    have hexec : s.afterInput.exec = .waitingForKey d := s.afterInput_exec.trans hwait
    have hr : s.beforeFetch.exec ≠ .running := by simp [State.beforeFetch_of_idle (.inr hnone), hwait]
    exact ⟨_, step_of_not_running hs hq hr, s.afterInput.signalRedraw_exec.trans hexec⟩

/-- Settles O37: phase 4 finds the machine as it was, not Running. -/
theorem blockedTickRunsNothing : Obligations.BlockedTickRunsNothing := by
  intro s hblocked hq
  obtain ⟨hs, hrun⟩ : s.exec ≠ .stopped ∧ s.exec ≠ .running := by
    rcases hblocked with ⟨⟨d, hd⟩, -⟩ | hp
    · simp [hd]
    · simp [hp]
  have hidle : s.beforeFetch = s.afterInput :=
    State.beforeFetch_of_idle (hblocked.symm.imp (fun hp d hd => by simp [hp] at hd) And.right)
  have hr : s.beforeFetch.exec ≠ .running := by rwa [hidle, State.afterInput_exec]
  refine ⟨_, step_of_not_running hs hq hr, ?_⟩
  obtain ⟨key, hkey⟩ := s.afterInput_eq
  rw [State.signalRedraw_eq, hkey]

/-! ### Redraw signalling -/

/-- A completed instruction leaves REDRAW set if it was, or if the instruction is 00E0 or DXYN (R33). -/
theorem exec_redraw {i : Instr} {s t : State} (h : exec i s = .next t) (ht : t.exec ≠ .stopped) :
    t.redraw = true ↔ s.redraw = true ∨ i = .cls ∨ ∃ x y n, i = .drw x y n := by
  constructor
  · intro hset
    by_cases hsame : t.redraw = s.redraw
    · exact .inl (hsame ▸ hset)
    · obtain ⟨-, -, -, hdraw, -⟩ := otherStateWrittenAsListed i s t h
      exact .inr (hdraw (.inr hsame))
  · rintro (hset | rfl | ⟨x, y, n, rfl⟩)
    · cases exec_effect h with
      | draw v fb hi hv => rfl
      | _ => exact hset
    · cases h
      rfl
    · by_cases hfit : spriteInMemory s.i.toNat (drawnRows n (drawTop (s.reg y)))
      · rw [exec_drw_of_fits hfit] at h
        cases h
        rfl
      · exact absurd (takesFault_iff_raise.1 (takesFault_drw_of_not_fits hfit)) (exec_ne_raise h ht)

/-- A tick executes one instruction at most. -/
theorem State.Executes.unique {s : State} {i j : Instr} (hi : s.Executes i) (hj : s.Executes j) : j = i := by
  obtain ⟨-, -, -, hi⟩ := hi
  obtain ⟨-, -, -, hj⟩ := hj
  exact Option.some.inj (hj.symm.trans hi)

/-- Phase 6 hands a pending redraw to the host, once (R215). -/
theorem State.presents_signalRedraw {s : State} (h : s.exec ≠ .stopped) :
    s.signalRedraw.presents = if s.redraw then s.fb :: s.presents else s.presents := by
  rw [State.signalRedraw, if_neg h]
  split <;> rfl

/-- A redraw is pending in the tick: from before, or by its 00E0 or DXYN (R33). -/
def State.RedrawDue (s : State) : Prop := s.redraw = true ∨ s.Executes .cls ∨ ∃ x y n, s.Executes (.drw x y n)

/-- Phase 6 of a tick that did not stop the machine clears REDRAW, and hands the framebuffer over where it is due. -/
theorem redraw_of_signalRedraw {s u : State} (hu : u.exec ≠ .stopped) (hpresents : u.presents = s.presents)
    (hdue : u.redraw = true ↔ s.RedrawDue) :
    u.signalRedraw.redraw = false ∧
    (s.RedrawDue → u.signalRedraw.presents = u.signalRedraw.fb :: s.presents) ∧
    (¬ s.RedrawDue → u.signalRedraw.presents = s.presents) := by
  refine ⟨State.signalRedraw_redraw_eq_false hu, fun h => ?_, fun h => ?_⟩
  · rw [State.presents_signalRedraw hu, if_pos (hdue.2 h), State.signalRedraw_fb, hpresents]
  · rw [State.presents_signalRedraw hu, if_neg (mt hdue.1 h), hpresents]

/-- A tick that executes `i` has a redraw due from before, or by `i` itself. -/
theorem State.Executes.redrawDue_iff {s : State} {i : Instr} (h : s.Executes i) :
    s.RedrawDue ↔ s.redraw = true ∨ i = .cls ∨ ∃ x y n, i = .drw x y n := by
  have hiff (j : Instr) : s.Executes j ↔ i = j := ⟨fun hj => hj.unique h, fun e => e ▸ h⟩
  simp only [State.RedrawDue, hiff]

/-- Settles O38: phase 6 answers for the two ways of ending that do not stop the machine. -/
theorem redrawSignalling : Obligations.RedrawSignalling := by
  intro s t h
  obtain ⟨hs, hends⟩ := step_ends h
  cases hends with
  | quit hq => exact ⟨fun hne => absurd rfl hne, fun _ => ⟨s.afterInput_presents, s.afterInput_redraw⟩⟩
  | blocked hq hr =>
    have hne : s.afterInput.exec ≠ .stopped := by rwa [State.afterInput_exec]
    have hdue : s.afterInput.redraw = true ↔ s.RedrawDue := by
      rw [State.afterInput_redraw, State.RedrawDue]
      exact (or_iff_left (by rintro (⟨-, hrun, -⟩ | ⟨x, y, n, -, hrun, -⟩) <;> exact hr hrun)).symm
    refine ⟨fun _ => redraw_of_signalRedraw hne s.afterInput_presents hdue, fun hstop => absurd hstop ?_⟩
    rwa [State.signalRedraw_exec]
  | fault hq hr hcause => exact ⟨fun hne => absurd rfl hne, fun _ => ⟨s.beforeFetch_presents, s.beforeFetch_redraw⟩⟩
  | @completes i u hex hu hfault hexec =>
    have hne := ne_stopped_of_completes hexec
    obtain ⟨-, -, -, -, -, -, hpresents, -⟩ := otherStateWrittenAsListed _ _ _ hu
    have hdue : u.redraw = true ↔ s.RedrawDue := by
      rw [exec_redraw hu hne, hex.redrawDue_iff, State.beforeFetch_redraw]
    refine ⟨fun _ => redraw_of_signalRedraw hne (hpresents.trans s.beforeFetch_presents) hdue,
      fun hstop => absurd hstop ?_⟩
    rwa [State.signalRedraw_exec]

/-! ### The step as `exec`, and runs -/

/-- Settles O31, by `step_of_executes`; a tick that begins Running skips phase 3. -/
theorem stepRunsDecodedInstruction : Obligations.StepRunsDecodedInstruction := by
  intro s i hex
  obtain ⟨u, hu, hstep⟩ := step_of_executes hex
  refine ⟨by rw [hstep, hu], fun hrun => ⟨?_, ?_, ?_⟩⟩
  · obtain ⟨key, hkey⟩ := s.afterInput_eq
    rw [s.beforeFetch_of_not_waiting (by simp [hrun]), hkey]
  · rw [State.beforeFetch_dt, toNat_timerStep]
  · rw [State.beforeFetch_st, toNat_timerStep]

section
variable {M : Host.Core} {s u : M.State}

theorem run_succ_of_next (h : M.step u = .next s) (k : Nat) : M.run (k + 1) u = M.run k s := by
  rw [Host.Core.run, h]

theorem run_succ_of_fault {r : M.Fault} (h : M.step u = .fault r) (k : Nat) : M.run (k + 1) u = .fault r := by
  rw [Host.Core.run, h]

theorem run_succ_of_refused {r : M.Refusal} (h : M.step u = .refused r) (k : Nat) : M.run (k + 1) u = .refused r := by
  rw [Host.Core.run, h]

/-- A run goes on from the state that its first steps reach. -/
theorem run_add {k : Nat} (h : M.run k u = .next s) (j : Nat) : M.run (k + j) u = M.run j s := by
  induction k generalizing u with
  | zero =>
    cases h
    rw [Nat.zero_add]
  | succ k ih =>
    cases hstep : M.step u with
    | next u' =>
      rw [run_succ_of_next hstep] at h
      rw [Nat.succ_add, run_succ_of_next hstep, ih h]
    | fault r => cases (run_succ_of_fault hstep k).symm.trans h
    | refused r => cases (run_succ_of_refused hstep k).symm.trans h

end

/-- Settles O40: the first step answers the stop, and a run through a Stopped state goes on from there. -/
theorem stoppedIsTerminal : Obligations.StoppedIsTerminal := by
  intro s hs
  have hstop (k : Nat) : Host.Core.run core (k + 1) s = .fault Fault.runEnded := run_succ_of_fault (if_pos hs) k
  refine ⟨hstop, fun u k hk t j => ?_⟩
  rw [Nat.add_assoc, run_add hk, Nat.add_comm, hstop]
  exact nofun

end Sys2Proof.Machine

/-! ## Reset and hazards (70_reset_and_hazards.md R240, R241, R246)

Reset has two outcomes: a ROM that loads (`State.bootWith_ok`) and one that is refused (`State.bootWith_refused`). -/

namespace Sys2Proof.Machine

/-! ### The memory of reset -/

/-- The font ends below the bound of the bulk write (R38, R55). -/
theorem font_fits (font : Vector Byte Config.fontLen) : Config.fontBase + font.toList.length < 4096 := by
  rw [Vector.length_toList]
  decide

/-- Memory after reset is canonical for every ROM that the address space holds (R50). -/
theorem Memory.wf_booted (font : Vector Byte Config.fontLen) {rom : List Byte} (h : rom.length ≤ 3584) :
    (Memory.booted font rom).wf := by
  have hrom : Config.romBase + rom.length ≤ 4096 := by simp only [Config.romBase]; omega
  exact Memory.wf_pokeAll (Memory.wf_pokeAll Memory.wf_nil (font_fits font).le) hrom

/-- Bytes equal to the reset content list nothing: `poke` lists only a byte that differs from it. -/
theorem Memory.pokeAll_nil_of_unlisted {a : Nat} {bs : List Byte}
    (h : ∀ k (hk : k < bs.length), bs[k] = Memory.unlisted (a + k)) : Memory.pokeAll [] a bs = [] := by
  induction bs generalizing a with
  | nil => rfl
  | cons b bs ih =>
    have hpoke : Memory.poke [] a b = [] := if_pos (h 0 (Nat.succ_pos _))
    rw [Memory.pokeAll, hpoke]
    refine ih fun k hk => ?_
    rw [Nat.add_right_comm]
    exact h (k + 1) (Nat.succ_lt_succ hk)

/-- The reset content holds the machine's own font (R40). -/
theorem Memory.unlisted_fontBase_add {k : Nat} (h : k < Config.fontLen) :
    Memory.unlisted (Config.fontBase + k) = Config.font[k] := by
  rw [Memory.unlisted, dif_pos ⟨Nat.le_add_right _ _, Nat.add_lt_add_left h _⟩]
  simp only [Nat.add_sub_cancel_left]

/-- The machine's own font over the reset content, without a ROM, lists nothing. -/
theorem Memory.booted_font_nil : Memory.booted Config.font [] = [] :=
  Memory.pokeAll_nil_of_unlisted fun _ hk => (Memory.unlisted_fontBase_add (by simpa using hk)).symm

/-! ### A ROM that is refused (R241) -/

/-- Reset with a ROM that is too long is a failed load over the memory of no ROM: the font is in place, and nothing of
the ROM is written (R55, R241). -/
theorem State.bootWith_refused (font : Vector Byte Config.fontLen) {rom : List Byte} (h : 3584 ≤ rom.length) :
    State.bootWith font rom =
      State.loadFailed { State.reset with mem := Memory.booted font [] } Config.romBase rom.length := by
  have hrom : 4096 ≤ Config.romBase + rom.length := by simp only [Config.romBase]; omega
  unfold State.bootWith
  rw [Memory.writeBytes_ok _ _ (font_fits font)]
  simp only [Memory.writeBytes_none _ _ hrom]
  rfl

/-- A failed load leaves the invariant: the machine is Stopped, and the record needs no address (R201, R203). -/
theorem State.inv_loadFailed {s : State} (hmem : s.mem.wf) (offset length : Nat) :
    (s.loadFailed offset length).Inv where
  memWf := hmem
  faultOk := by
    rintro r ⟨⟩
    exact ⟨rfl, fun hkind => absurd rfl hkind⟩
  redrawClear := fun hexec => absurd rfl hexec

/-- A fault has ended the run with a nonzero exit (R228). -/
theorem State.exitStatus_of_fault {s : State} {r : FaultRecord} (h : s.fault = some r) :
    s.exitStatus = some .nonzero :=
  if_pos (by rw [h]; rfl)

/-- No tick runs in `Stopped` (R216). -/
theorem step_ne_next_of_stopped {s : State} (h : s.exec = .stopped) (t : State) : step s ≠ .next t :=
  fun hstep => (step_cases hstep).1 h

/-- Settles O58: the refused load is taken over the memory of no ROM. -/
theorem oversizedRomIsRejected : Obligations.OversizedRomIsRejected := by
  intro font rom hrom
  refine ⟨_, State.bootWith_refused font hrom, rfl, ?_, State.exitStatus_of_fault rfl, step_ne_next_of_stopped rfl⟩
  rw [State.bootWith_ok font (rom := []) (by decide)]
  rfl

/-! ### Reset as a whole -/

/-- Settles O46, by the two outcomes of reset. -/
theorem bootMeetsInvariant : Obligations.BootMeetsInvariant := by
  intro font rom
  rcases Nat.lt_or_ge rom.length 3584 with hrom | hrom
  · rw [State.bootWith_ok font hrom]
    exact { resetMeetsInvariant with memWf := Memory.wf_booted font hrom.le }
  · rw [State.bootWith_refused font hrom]
    exact State.inv_loadFailed (Memory.wf_booted font (Nat.zero_le _)) _ _

/-- Settles O57: the empty ROM loads, and the machine's own font lists nothing. -/
theorem resetIsBootWithEmptyRom : Obligations.ResetIsBootWithEmptyRom := by
  rw [Obligations.ResetIsBootWithEmptyRom, State.boot, State.bootWith_ok _ (by decide), Memory.booted_font_nil]
  rfl

/-! ### The wait that FX0A starts (R246) -/

/-- Settles O30: the tick's events are spent in phases 2 and 3, before FX0A runs, and phase 6 keeps EXEC and V. -/
theorem keyWaitOutlastsItsOwnTick : Obligations.KeyWaitOutlastsItsOwnTick := by
  intro x s t hex hstep
  obtain ⟨u, hu, rfl⟩ := exec_of_executes hex hstep
  cases hu
  exact ⟨State.signalRedraw_exec _, State.reg_signalRedraw _⟩

end Sys2Proof.Machine
